-- ==== Sys2Proof/Word.lean ====
section
/-! DEFINITION. The word types: the 8-bit data bus and the 10-bit byte address of the host (rule R11, 00_scope.md). -/

namespace Sys2Proof

/-- One byte: a framebuffer cell, a register, a byte on the host bus or on the serial line (R11). -/
abbrev Byte := BitVec 8

/-- A block-relative host byte address, 0x000 to 0x3FF (R37, R38). -/
abbrev HostAddr := BitVec 10

end Sys2Proof
end

