-- ==== Sys2Proof/Config.lean ====
section
/-! DEFINITION. What is fixed for the machine: the geometry of rules R8 and R9, and the parameters of rule R10 (00_scope.md).
A parameter whose value the spec leaves open is an opaque constant: nothing in Lean knows its value. -/

namespace Sys2Proof.Config

/-- WIDTH, the pixel columns (R8). -/
@[simp] abbrev width : Nat := 84

/-- HEIGHT, the pixel rows (R8). -/
@[simp] abbrev height : Nat := 48

/-- PAGES, the row-pages of 8 pixel rows (R8). -/
@[simp] abbrev pages : Nat := 6

/-- CELLS, the framebuffer bytes (R8). -/
@[simp] abbrev cells : Nat := 504

/-- GLYPH_W, the columns of a glyph (R9). -/
@[simp] abbrev glyphW : Nat := 5

/-- The five column bytes of a glyph, column 0 first; bit `j` of a byte is pixel row `j` (R9, R31). -/
structure Glyph where
  g0 : Byte
  g1 : Byte
  g2 : Byte
  g3 : Byte
  g4 : Byte
deriving DecidableEq, Repr

/-- The column bytes in column order. -/
def Glyph.columns (g : Glyph) : List Byte := [g.g0, g.g1, g.g2, g.g3, g.g4]

/-- P_FONT's open contents: byte `col` of the glyph of `code` (R10, D27; log 8). -/
opaque fontByte (code col : Nat) : Byte

/-- P_FB_RESET, a draw under no law: the byte that cell `index` holds after the block reset number `draw`
(R10, R36, D20; log 3). -/
opaque fbReset (draw index : Nat) : Byte

/-- P_BIAS, the 3-bit bias value INIT sends (R10, D24; log 9). -/
opaque bias : BitVec 3

/-- P_RESET_HOLD, the duration INIT holds the display's reset line low, in the external capability's own unit
(R10, R91, D24; logs 9, 23). -/
opaque resetHold : Nat

/-- P_BACKLIGHT, the level INIT drives on the backlight line (R10, D24; log 9). -/
opaque backlight : Bool

/-- P_BASE, where the platform places the 1024-byte window (R116, D3; log 11). -/
opaque base : Nat

/-- The platform address of a block-relative address. No rule of the spec reads it: its rules are block-relative (R116). -/
def platformAddr (a : HostAddr) : Nat := base + a.toNat

end Sys2Proof.Config
end

