-- ==== Sys2Proof/Machine/State.lean ====
section
/-! DEFINITION. The state of the framebuffer_controller (10_state.md), the state after block reset (rules R34, R35, R36), and
the ways a step can stop. Plain data only. -/

namespace Sys2Proof.Machine

/-- Memory as a list of (address, byte) pairs, addresses strictly rising. An unlisted address holds no known value. -/
abbrev Memory := List Host.Cell

/-- The framebuffer (R22). `mem` lists the cells written since the last block reset, by flat index `p*84 + c` (R40);
every other cell holds its byte of the draw number `draw` of P_FB_RESET (R36; log 3). -/
structure Framebuffer where
  draw : Nat
  mem : Memory
deriving DecidableEq, Repr

/-- ARG0 to ARG6 (R18). -/
structure Args where
  arg0 : Byte
  arg1 : Byte
  arg2 : Byte
  arg3 : Byte
  arg4 : Byte
  arg5 : Byte
  arg6 : Byte
deriving DecidableEq, Repr

/-- The six output lines (R29). -/
inductive Line where
  | sdin
  | sclk
  | dc
  | sce
  | rst
  | bl
deriving DecidableEq, Repr

/-- The logic level of each output line (R29). -/
structure Lines where
  sdin : Bool
  sclk : Bool
  dc : Bool
  sce : Bool
  rst : Bool
  bl : Bool
deriving DecidableEq, Repr

/-- One output event (R30): a line set to a level, or a delay of a duration. -/
inductive Event where
  | set (line : Line) (level : Bool)
  | delay (duration : Nat)
deriving DecidableEq, Repr

/-- The mode of a byte transfer (R92). -/
inductive Mode where
  | cmd
  | data
deriving DecidableEq, Repr

/-- One item of the byte-level trace (R93): a whole byte transfer, or an event outside any transfer. -/
inductive ByteEvent where
  | xfer (m : Mode) (b : Byte)
  | other (e : Event)
deriving DecidableEq, Repr

/-- What the outside world does to the block: `MemRead(addr, nbytes)`, `MemWrite(addr, nbytes, data)` (R14, R38), or a
pulse of the block's reset input (R120). -/
inductive HostEvent where
  | read (addr : HostAddr) (nbytes : Nat)
  | write (addr : HostAddr) (nbytes : Nat) (data : Byte)
  | blockReset
deriving DecidableEq, Repr

/-- The two error conditions a command can raise (R106, R107). -/
inductive CommandError where
  | illegalCommand
  | notReady
deriving DecidableEq, Repr

/-- The whole state of the machine. -/
structure State where
  /-- The framebuffer (R22). -/
  fb : Framebuffer
  /-- ARG0 to ARG6 (R18). -/
  args : Args
  /-- STATUS (R20). -/
  status : Byte
  /-- RESULT (R21). -/
  result : Byte
  /-- CURSOR_X (R24). -/
  cursorX : Byte
  /-- CURSOR_Y (R24). -/
  cursorY : Byte
  /-- TEXT_SIZE (R25). -/
  textSize : Byte
  /-- TEXT_COLOR (R26). -/
  textColor : Byte
  /-- CONTRAST (R27). -/
  contrast : Byte
  /-- The output lines (R29). -/
  lines : Lines
  /-- The output trace, oldest event first (R30). -/
  trace : List Event
  /-- How many more events the signalling agent will accept; `none`: it accepts every event (R15, R101; log 5). -/
  agent : Option Nat
  /-- A command waits for ever for the signalling agent (R101; log 6). -/
  stalled : Bool
  /-- The host events still to come, the next one first (R15, R47; log 1). -/
  pending : List HostEvent
  /-- The bytes the host's reads returned so far, oldest first (R38; log 2). -/
  readLog : List Byte
  /-- P_NEWLINE_WRAPS_Y, the parameter of the part: whether a newline also applies the bottom-edge wrap (R10, D18, V7). Only
  WRITE_BYTE reads it, and nothing changes it (log 10). -/
  newlineWrapsY : Bool
deriving DecidableEq, Repr

/-- Why a step stops with a fault. -/
inductive Fault where
  /-- Raised by `step` alone, in a stalled state whose next host event is not a block reset: the command that waits for
  the signalling agent never completes, so no host access starts (R101, V8; log 6). Safe: nothing happens in the
  hardware either. -/
  | signallingStuck
deriving DecidableEq, Repr

/-- Why a step is refused. -/
inductive Refusal where
  /-- Raised by `exec` for an instruction that has no meaning yet; no arm raises it. Safe. -/
  | notModelled (mnemonic : String)
  /-- Raised by a host access of another width than one byte: no meaning is given to it (R38, V9; log 14). Safe. -/
  | accessWidth (nbytes : Nat)
deriving DecidableEq, Repr

/-- The line levels after block reset (R35). -/
def Lines.reset : Lines where
  sdin := false
  sclk := false
  dc := false
  sce := true
  rst := true
  bl := false

/-- The operand registers after block reset (R34). -/
def Args.reset : Args where
  arg0 := 0x00
  arg1 := 0x00
  arg2 := 0x00
  arg3 := 0x00
  arg4 := 0x00
  arg5 := 0x00
  arg6 := 0x00

/-- The machine right after block reset (R34, R35, R36, R120): idle, no host event pending. The model's own fields stand
at the values of logs 1, 2, 3, 5 and 6, and the parameter P_NEWLINE_WRAPS_Y at its default (R10; log 10). -/
def State.reset : State where
  fb := { draw := 0, mem := [] }
  args := Args.reset
  status := 0x00
  result := 0x00
  cursorX := 0x00
  cursorY := 0x00
  textSize := 0x01
  textColor := 0x01
  contrast := 0x00
  lines := Lines.reset
  trace := []
  agent := none
  stalled := false
  pending := []
  readLog := []
  newlineWrapsY := false

end Sys2Proof.Machine
end

