-- ==== Sys2Proof/Machine/Flags.lean ====
section
/-! DEFINITION. The STATUS register, the only flags the block has (rules R17, R20, R32, 10_state.md). -/

namespace Sys2Proof.Machine

/-- The STATUS bit of an error: ILLEGAL is bit 0 (R106), NOTREADY is bit 1 (R107). -/
def CommandError.mask : CommandError → Byte
  | .illegalCommand => 0x01
  | .notReady => 0x02

/-- READY, bit 2 of STATUS (R20). -/
def readyMask : Byte := 0x04

/-- STATUS.ILLEGAL (R20). -/
def State.illegal (s : State) : Bool := s.status.getLsbD 0

/-- STATUS.NOTREADY (R20). -/
def State.notReady (s : State) : Bool := s.status.getLsbD 1

/-- STATUS.READY, the serializer's protocol state (R20, R28). -/
def State.ready (s : State) : Bool := s.status.getLsbD 2

/-- STATUS with the bits of `mask` set and the others kept. -/
def statusSet (status mask : Byte) : Byte := status ||| mask

/-- STATUS after the host writes `v` to it: bits 1:0 are W1C, READY and bits 7:3 are kept (R17, R43). -/
def statusW1C (status v : Byte) : Byte := status &&& ~~~(v &&& 0x03)

end Sys2Proof.Machine
end

