-- ==== Sys2Proof/Syntax.lean ====
section
/-! DEFINITION. The commands of the FBC command set, revision 1: one constructor per row of spec/opcode_table.json
(rules R53 and R55, 30_encoding.md). -/

namespace Sys2Proof

/-- A command with its operands in the order of its format (R53, R64). A byte operand is the natural number its byte
encodes (R13, R54), so its range 0..255 is a check of its own (Instr.wellFormed); a one-bit operand is a Bool. -/
inductive Instr where
  /-- NOP, 0x00, format N (R68). -/
  | nop
  /-- CLEAR, 0x01, format N (R69). -/
  | clear
  /-- SET_PIXEL, 0x02, format XYP (R71). -/
  | setPixel (x y : Nat) (on : Bool)
  /-- DRAW_LINE, 0x10, format L (R78). -/
  | drawLine (x0 y0 x1 y1 : Nat) (c : Bool)
  /-- DRAW_HLINE, 0x11, format XYLC (R79). -/
  | drawHline (x y w : Nat) (c : Bool)
  /-- DRAW_VLINE, 0x12, format XYLC (R80). -/
  | drawVline (x y h : Nat) (c : Bool)
  /-- DRAW_TRIANGLE, 0x13, format T (R81). -/
  | drawTriangle (x1 y1 x2 y2 x3 y3 : Nat) (c : Bool)
  /-- DRAW_CHAR, 0x20, format XYK (R83). -/
  | drawChar (x y code : Nat)
  /-- WRITE_BYTE, 0x21, format B (R85). -/
  | writeByte (b : Nat)
  /-- SET_CURSOR, 0x22, format XY (R86). -/
  | setCursor (x y : Nat)
  /-- SET_TEXT_ATTR, 0x23, format SC (R87). -/
  | setTextAttr (size : Nat) (color : Bool)
  /-- INIT, 0x30, format B (R96). -/
  | init (contrast : Nat)
  /-- SET_CONTRAST, 0x31, format B (R97). -/
  | setContrast (contrast : Nat)
  /-- FLUSH, 0x32, format N (R98). -/
  | flush
deriving DecidableEq, Repr

end Sys2Proof
end

