-- ==== Sys2Proof/WellFormed.lean ====
section
/-! DEFINITION. Well-formed commands: every byte operand is a natural number in 0..255 (rules R11, R54; the assembler refuses
any other, R64). -/

namespace Sys2Proof

/-- A byte operand's range (R11, R64). -/
def isByte (n : Nat) : Bool := decide (n < 256)

/-- Every byte operand of the command is in range. -/
def Instr.wellFormed : Instr → Bool
  | .nop => true
  | .clear => true
  | .setPixel x y _ => isByte x && isByte y
  | .drawLine x0 y0 x1 y1 _ => isByte x0 && isByte y0 && isByte x1 && isByte y1
  | .drawHline x y w _ => isByte x && isByte y && isByte w
  | .drawVline x y h _ => isByte x && isByte y && isByte h
  | .drawTriangle x1 y1 x2 y2 x3 y3 _ =>
    isByte x1 && isByte y1 && isByte x2 && isByte y2 && isByte x3 && isByte y3
  | .drawChar x y code => isByte x && isByte y && isByte code
  | .writeByte b => isByte b
  | .setCursor x y => isByte x && isByte y
  | .setTextAttr size _ => isByte size
  | .init contrast => isByte contrast
  | .setContrast contrast => isByte contrast
  | .flush => true

end Sys2Proof
end

