-- ==== Sys2Proof/Decode.lean ====
section
/-! DEFINITION. The decoder, total on any bytes, and the encoder (30_encoding.md, rules R52 to R62). -/

namespace Sys2Proof

/-- Why the decoder gives no command. -/
inductive Reject where
  /-- Fewer than the eight bytes of a command word (R61: there is one length). The block never sees it. -/
  | truncated (nbytes : Nat)
  /-- 0x14, reserved for a rectangle command; behaves as any undefined opcode (R59). -/
  | reservedRectangle
  /-- 0x33, reserved for a power-down command; behaves as any undefined opcode (R59). -/
  | reservedPowerDown
  /-- Any other opcode that rule R55 does not list (R58). -/
  | undefinedOpcode (opc : Byte)
deriving DecidableEq, Repr

/-- The command word of eight bytes, byte `k` in bits `8k+7 : 8k` (R52). -/
def packBytes (b0 b1 b2 b3 b4 b5 b6 b7 : Byte) : BitVec 64 :=
  b7 ++ b6 ++ b5 ++ b4 ++ b3 ++ b2 ++ b1 ++ b0

/-- Byte `k` of the command word, `W[8k+7 : 8k]` (R52). -/
def wordByte (w : BitVec 64) (k : Nat) : Byte := w.extractLsb' (8 * k) 8

/-- A byte field: the natural number that byte `k` of the word encodes (R54). -/
def byteField (w : BitVec 64) (k : Nat) : Nat := (wordByte w k).toNat

/-- A one-bit field: bit 0 of byte `k` of the word; the other seven bits are ignored (R54). -/
def bitField (w : BitVec 64) (k : Nat) : Bool := (wordByte w k).getLsbD 0

/-- Decode one command word. The opcode byte alone selects the command (R55, R56), the format says which bits are read
(R53), and every other bit is ignored (R57). -/
def decodeWord (w : BitVec 64) : Except Reject Instr :=
  match (wordByte w 0).toNat with
  | 0x00 => .ok .nop
  | 0x01 => .ok .clear
  | 0x02 => .ok (.setPixel (byteField w 1) (byteField w 2) (bitField w 3))
  | 0x10 => .ok (.drawLine (byteField w 1) (byteField w 2) (byteField w 3) (byteField w 4) (bitField w 5))
  | 0x11 => .ok (.drawHline (byteField w 1) (byteField w 2) (byteField w 3) (bitField w 4))
  | 0x12 => .ok (.drawVline (byteField w 1) (byteField w 2) (byteField w 3) (bitField w 4))
  | 0x13 => .ok (.drawTriangle (byteField w 1) (byteField w 2) (byteField w 3) (byteField w 4)
      (byteField w 5) (byteField w 6) (bitField w 7))
  | 0x20 => .ok (.drawChar (byteField w 1) (byteField w 2) (byteField w 3))
  | 0x21 => .ok (.writeByte (byteField w 1))
  | 0x22 => .ok (.setCursor (byteField w 1) (byteField w 2))
  | 0x23 => .ok (.setTextAttr (byteField w 1) (bitField w 2))
  | 0x30 => .ok (.init (byteField w 1))
  | 0x31 => .ok (.setContrast (byteField w 1))
  | 0x32 => .ok .flush
  | 0x14 => .error .reservedRectangle
  | 0x33 => .error .reservedPowerDown
  | _ => .error (.undefinedOpcode (wordByte w 0))

/-- Decode the bytes of a command as they stand from 0x200 upwards, and give the bytes that follow the command
(R52, R61). -/
def decode : List Byte → Except Reject (Instr × List Byte)
  | b0 :: b1 :: b2 :: b3 :: b4 :: b5 :: b6 :: b7 :: rest =>
    match decodeWord (packBytes b0 b1 b2 b3 b4 b5 b6 b7) with
    | .ok i => .ok (i, rest)
    | .error r => .error r
  | bs => .error (.truncated bs.length)

/-- The opcode of a command (R55). -/
def Instr.opcode : Instr → Byte
  | .nop => 0x00
  | .clear => 0x01
  | .setPixel _ _ _ => 0x02
  | .drawLine _ _ _ _ _ => 0x10
  | .drawHline _ _ _ _ => 0x11
  | .drawVline _ _ _ _ => 0x12
  | .drawTriangle _ _ _ _ _ _ _ => 0x13
  | .drawChar _ _ _ => 0x20
  | .writeByte _ => 0x21
  | .setCursor _ _ => 0x22
  | .setTextAttr _ _ => 0x23
  | .init _ => 0x30
  | .setContrast _ => 0x31
  | .flush => 0x32

/-- The operand byte of a byte operand (R54). -/
def operandByte (n : Nat) : Byte := BitVec.ofNat 8 n

/-- The operand byte of a bit operand, its ignored bits 0 (R54, R64). -/
def operandBit (b : Bool) : Byte := if b then 1 else 0

/-- The ARG bytes that the command's format names, ARG0 first. Every format names the first bytes, without a gap
(R53). -/
def Instr.argBytes : Instr → List Byte
  | .nop => []
  | .clear => []
  | .setPixel x y on => [operandByte x, operandByte y, operandBit on]
  | .drawLine x0 y0 x1 y1 c =>
    [operandByte x0, operandByte y0, operandByte x1, operandByte y1, operandBit c]
  | .drawHline x y w c => [operandByte x, operandByte y, operandByte w, operandBit c]
  | .drawVline x y h c => [operandByte x, operandByte y, operandByte h, operandBit c]
  | .drawTriangle x1 y1 x2 y2 x3 y3 c =>
    [operandByte x1, operandByte y1, operandByte x2, operandByte y2, operandByte x3, operandByte y3,
      operandBit c]
  | .drawChar x y code => [operandByte x, operandByte y, operandByte code]
  | .writeByte b => [operandByte b]
  | .setCursor x y => [operandByte x, operandByte y]
  | .setTextAttr size color => [operandByte size, operandBit color]
  | .init contrast => [operandByte contrast]
  | .setContrast contrast => [operandByte contrast]
  | .flush => []

/-- The command word of an opcode byte and the ARG bytes from ARG0 on; bytes not given are 0. -/
def packWord (opc : Byte) (args : List Byte) : BitVec 64 :=
  packBytes opc (args.getD 0 0) (args.getD 1 0) (args.getD 2 0) (args.getD 3 0) (args.getD 4 0)
    (args.getD 5 0) (args.getD 6 0)

/-- The command word of a command, its ignored bits 0 (R52, R53, R64). -/
def encode (i : Instr) : BitVec 64 := packWord i.opcode i.argBytes

/-- The bits of the word that the command's format names, and the opcode (the table of R53). Every other bit is
ignored (R57). -/
def Instr.namedBits : Instr → BitVec 64
  | .nop => 0x00000000000000FF
  | .clear => 0x00000000000000FF
  | .setPixel _ _ _ => 0x0000000001FFFFFF
  | .drawLine _ _ _ _ _ => 0x000001FFFFFFFFFF
  | .drawHline _ _ _ _ => 0x00000001FFFFFFFF
  | .drawVline _ _ _ _ => 0x00000001FFFFFFFF
  | .drawTriangle _ _ _ _ _ _ _ => 0x01FFFFFFFFFFFFFF
  | .drawChar _ _ _ => 0x00000000FFFFFFFF
  | .writeByte _ => 0x000000000000FFFF
  | .setCursor _ _ => 0x0000000000FFFFFF
  | .setTextAttr _ _ => 0x000000000001FFFF
  | .init _ => 0x000000000000FFFF
  | .setContrast _ => 0x000000000000FFFF
  | .flush => 0x00000000000000FF

/-- Byte `k` of an instruction given as a number of `nbits` bits; the bits above `nbits` are 0. -/
def tableByte (nbits w k : Nat) : Byte := BitVec.ofNat 8 ((w % 2 ^ nbits) / 256 ^ k)

/-- The eight bytes, at 0x200 and upwards, of an instruction given as the opcode table numbers its bits (R52). -/
def tableBytes (nbits w : Nat) : List Byte :=
  [tableByte nbits w 0, tableByte nbits w 1, tableByte nbits w 2, tableByte nbits w 3,
    tableByte nbits w 4, tableByte nbits w 5, tableByte nbits w 6, tableByte nbits w 7]

/-- What the decoder reads from an instruction numbered as spec/opcode_table.json numbers it. -/
def decodeTableWord (nbits w : Nat) : Option Instr :=
  match decode (tableBytes nbits w) with
  | .ok (i, _) => some i
  | .error _ => none

end Sys2Proof
end

