-- ==== Sys2Proof/Machine/Operands.lean ====
section
/-! DEFINITION. Operands: the command word as the operand registers hold it, the exact arithmetic of rule R13, and the address
arithmetic of the framebuffer and the register block. -/

namespace Sys2Proof.Machine

/-- Operand register `k`; there is none above ARG6 (R14, R18). -/
def Args.get (a : Args) : Nat → Byte
  | 0 => a.arg0
  | 1 => a.arg1
  | 2 => a.arg2
  | 3 => a.arg3
  | 4 => a.arg4
  | 5 => a.arg5
  | 6 => a.arg6
  | _ => 0x00

/-- Store a byte into operand register `k` (R18, R43). -/
def Args.set (a : Args) (k : Nat) (v : Byte) : Args :=
  match k with
  | 0 => { a with arg0 := v }
  | 1 => { a with arg1 := v }
  | 2 => { a with arg2 := v }
  | 3 => { a with arg3 := v }
  | 4 => { a with arg4 := v }
  | 5 => { a with arg5 := v }
  | 6 => { a with arg6 := v }
  | _ => a

/-- The command word of a write of `v` to CMD: `{ARG6, ARG5, ARG4, ARG3, ARG2, ARG1, ARG0, v}` (R62). -/
def commandWord (a : Args) (v : Byte) : BitVec 64 :=
  packBytes v a.arg0 a.arg1 a.arg2 a.arg3 a.arg4 a.arg5 a.arg6

/-- The larger minus the smaller (R13). -/
def absdiff (a b : Nat) : Nat := max a b - min a b

/-- The point is on the display (R70). -/
def onDisplay (x y : Nat) : Bool := decide (x < Config.width) && decide (y < Config.height)

/-- The flat index of cell `(p, c)`, which is its aperture address (R40). -/
def cellIndex (p c : Nat) : Nat := p * Config.width + c

/-- The end coordinate of a horizontal or vertical line of length `len >= 1` (R79, R80). -/
def lineEnd (start len : Nat) : Nat := min (start + len - 1) 255

/-- The contrast clamp (R95). -/
def clamp (c : Nat) : Nat := min c 0x7F

/-- The level of one output line. -/
def Lines.get (l : Lines) : Line → Bool
  | .sdin => l.sdin
  | .sclk => l.sclk
  | .dc => l.dc
  | .sce => l.sce
  | .rst => l.rst
  | .bl => l.bl

/-- Set one output line to a level (R29, R90). -/
def Lines.set (l : Lines) (line : Line) (level : Bool) : Lines :=
  match line with
  | .sdin => { l with sdin := level }
  | .sclk => { l with sclk := level }
  | .dc => { l with dc := level }
  | .sce => { l with sce := level }
  | .rst => { l with rst := level }
  | .bl => { l with bl := level }

/-- The LINES register: SDIN, SCLK, DC, SCE, RST, BL in bits 0 to 5, bits 7:6 zero (R17). -/
def Lines.toByte (l : Lines) : Byte :=
  0#2 ++ BitVec.ofBool l.bl ++ BitVec.ofBool l.rst ++ BitVec.ofBool l.sce ++ BitVec.ofBool l.dc
    ++ BitVec.ofBool l.sclk ++ BitVec.ofBool l.sdin

end Sys2Proof.Machine
end

