-- ==== Sys2Proof/Machine/Ops.lean ====
section
/-! DEFINITION. The named operations over the state that the meanings share: memory, framebuffer cells and pixels, raising an
error, emitting output events, and block reset. -/

namespace Sys2Proof.Machine

/-- The outcome of a command or of a step. -/
abbrev Result := Host.Outcome State Fault Refusal

/-! ## Memory -/

/-- The byte that a memory lists at an address, if it lists one. -/
def Memory.lookup (a : Nat) : Memory → Option Byte
  | [] => none
  | (b, v) :: m => if a = b then some v else Memory.lookup a m

/-- The memory with byte `v` at address `a`; the addresses stay in strictly rising order. -/
def Memory.write (a : Nat) (v : Byte) : Memory → Memory
  | [] => [(a, v)]
  | (b, u) :: m =>
    if a < b then (a, v) :: (b, u) :: m
    else if a = b then (a, v) :: m
    else (b, u) :: Memory.write a v m

/-- The addresses rise strictly from at least `lo` on and stay below `hi`. -/
def Memory.rising (lo hi : Nat) : Memory → Bool
  | [] => true
  | (a, _) :: m => decide (lo ≤ a) && decide (a < hi) && Memory.rising (a + 1) hi m

/-- The canonical form of the framebuffer's memory: addresses strictly rising, each the index of one of the 504 cells.
An unlisted address has no known value, so no entry can be equal to it (log 3). -/
def Memory.wf (m : Memory) : Bool := Memory.rising 0 Config.cells m

/-! ## The framebuffer -/

/-- The byte of the cell with flat index `i`: the byte written last, or its byte of the reset draw (R22, R36). -/
def Framebuffer.read (fb : Framebuffer) (i : Nat) : Byte :=
  (Memory.lookup i fb.mem).getD (Config.fbReset fb.draw i)

/-- Store a byte into the cell with flat index `i`. -/
def Framebuffer.write (fb : Framebuffer) (i : Nat) (v : Byte) : Framebuffer :=
  { fb with mem := Memory.write i v fb.mem }

/-- `FB[p][c]` (R14, R22). -/
def Framebuffer.cell (fb : Framebuffer) (p c : Nat) : Byte := fb.read (cellIndex p c)

/-- `FB[p][c] <- v` (R14). -/
def Framebuffer.setCell (fb : Framebuffer) (p c : Nat) (v : Byte) : Framebuffer :=
  fb.write (cellIndex p c) v

/-- The pixel at `(x, y)`, true when it is on (R22). -/
def Framebuffer.pixel (fb : Framebuffer) (x y : Nat) : Bool := (fb.cell (y / 8) x).getLsbD (y % 8)

/-- Every one of the 504 cells at 0x00: the effect of CLEAR's two loops (R69). -/
def Framebuffer.clear (fb : Framebuffer) : Framebuffer :=
  { fb with mem := (List.range Config.cells).map fun i => (i, 0x00) }

/-- The byte with bit `b` set or cleared, the other seven bits kept (R70). -/
def setBit (v : Byte) (b : Nat) (on : Bool) : Byte :=
  if on then v ||| (1#8 <<< b) else v &&& ~~~(1#8 <<< b)

/-- The pixel primitive `set_pixel(x, y, on)`; off the display it changes nothing (R70). -/
def setPixel (x y : Nat) (on : Bool) (fb : Framebuffer) : Framebuffer :=
  if onDisplay x y then fb.setCell (y / 8) x (setBit (fb.cell (y / 8) x) (y % 8) on) else fb

/-! ## Errors -/

/-- `raise E`: set the sticky STATUS bit of the error, and nothing else (R14, R105, R106, R107, R111). -/
def raise (e : CommandError) (s : State) : State := { s with status := statusSet s.status e.mask }

/-! ## Output events -/

/-- The levels after one event: a Set event sets its line, a Delay changes none (R90, R91). -/
def Lines.apply (l : Lines) : Event → Lines
  | .set line level => l.set line level
  | .delay _ => l

/-- The levels after a list of events. -/
def Lines.applyAll (l : Lines) (es : List Event) : Lines := es.foldl Lines.apply l

/-- The 27 events of one byte transfer (R92). -/
def xferEvents (m : Mode) (b : Byte) : List Event :=
  .set .dc (decide (m = .data)) :: .set .sce false
    :: [7, 6, 5, 4, 3, 2, 1, 0].foldr (fun i es =>
      .set .sdin (b.getLsbD i) :: .set .sclk true :: .set .sclk false :: es) [.set .sce true]

/-- The pin-level events of one item of the byte-level trace (R92, R93). -/
def ByteEvent.expand : ByteEvent → List Event
  | .xfer m b => xferEvents m b
  | .other e => [e]

/-- The pin-level events of a byte-level trace (R93). -/
def expandAll (items : List ByteEvent) : List Event := items.flatMap ByteEvent.expand

/-- The signalling agent will accept `n` more events (R101). -/
def State.agentAccepts (s : State) (n : Nat) : Bool :=
  match s.agent with
  | none => true
  | some k => decide (n ≤ k)

/-- The state after the agent has accepted the events: each is appended to the trace and a Set changes its line
(R90, R91). -/
def State.accept (s : State) (es : List Event) : State :=
  { s with
    trace := s.trace ++ es
    lines := s.lines.applyAll es
    agent := s.agent.map (fun k => k - es.length) }

/-- The state in which a command that emits these events waits for ever: the agent has accepted the events it still
would, and no other (R101; log 6). -/
def State.stall (s : State) (es : List Event) : State :=
  { s.accept (es.take (s.agent.getD es.length)) with stalled := true }

/-- Emit the events of a byte-level list, then do the rest of the command; if the agent does not accept them all, the
command never completes and the rest is not done (R63, R101). -/
def emitThen (items : List ByteEvent) (rest : State → State) (s : State) : Result :=
  if s.agentAccepts (expandAll items).length then .next (rest (s.accept (expandAll items)))
  else .next (s.stall (expandAll items))

/-! ## Block reset -/

/-- Block reset: every register and line at its reset value, the trace empty, the framebuffer a new draw (R34, R35, R36,
R120). What is outside the block stays: the host's accesses to come and the bytes it has read, and the signalling agent
(log 4). So does the part's parameter (log 10). -/
def blockReset (s : State) : State :=
  { State.reset with
    fb := { draw := s.fb.draw + 1, mem := [] }
    agent := s.agent
    pending := s.pending
    readLog := s.readLog
    newlineWrapsY := s.newlineWrapsY }

end Sys2Proof.Machine
end

