-- ==== Sys2Proof/Machine/Drawing.lean ====
section
/-! DEFINITION. The commands of the framebuffer_controller proper: NOP, CLEAR, SET_PIXEL (40_framebuffer.md). -/

namespace Sys2Proof.Machine

/-- NOP changes nothing (R68). -/
def execNop (s : State) : Result := .next s

/-- CLEAR: every cell 0x00 and the cursor at (0, 0) (R69, R121). -/
def execClear (s : State) : Result :=
  .next { s with fb := s.fb.clear, cursorX := 0x00, cursorY := 0x00 }

/-- SET_PIXEL: the pixel primitive (R71). -/
def execSetPixel (x y : Nat) (on : Bool) (s : State) : Result :=
  .next { s with fb := setPixel x y on s.fb }

end Sys2Proof.Machine
end

