-- ==== Sys2Proof/Machine/GlyphBlit.lean ====
section
/-! DEFINITION. The glyph_blit_unit and the text cursor: DRAW_CHAR, WRITE_BYTE, SET_CURSOR, SET_TEXT_ATTR (42_glyph_blit.md). -/

namespace Sys2Proof.Machine

open Config (Glyph)

/-- The one glyph the spec gives, of code 0x41 (R10, R31, D27). -/
def glyphA : Glyph := { g0 := 0x7E, g1 := 0x11, g2 := 0x11, g3 := 0x11, g4 := 0x7E }

/-- P_FONT, for a code of the glyph domain: the given glyph of 0x41, every other glyph free (R10; log 8). -/
def fontGlyph (code : Nat) : Glyph :=
  if code = 0x41 then glyphA
  else
    { g0 := Config.fontByte code 0
      g1 := Config.fontByte code 1
      g2 := Config.fontByte code 2
      g3 := Config.fontByte code 3
      g4 := Config.fontByte code 4 }

/-- `FONT(code)`: a glyph for the codes 0x20 to 0xB3, none for any other (R31). -/
def font (code : Nat) : Option Glyph :=
  if 0x20 ≤ code ∧ code ≤ 0xB3 then some (fontGlyph code) else none

/-- COLOR, bit 0 of TEXT_COLOR (R26). -/
def State.color (s : State) : Bool := s.textColor.getLsbD 0

/-- The cell byte of a glyph byte: as it is, or complemented when COLOR is 0 (R82). -/
def glyphCell (color : Bool) (g : Byte) : Byte := if color then g else ~~~g

/-- Replace cells of page `p` from column `x` on by these bytes (R82). -/
def blitColumns (p x : Nat) : List Byte → Framebuffer → Framebuffer
  | [], fb => fb
  | g :: gs, fb => blitColumns p (x + 1) gs (fb.setCell p x g)

/-- The blit has room: `y < 48` and `x + 5 < 84`, exact (R82). -/
def glyphFits (x y : Nat) : Bool :=
  decide (y < Config.height) && decide (x + Config.glyphW < Config.width)

/-- The framebuffer after `draw_char(x, y, code)` (R82). -/
def drawChar (color : Bool) (x y code : Nat) (fb : Framebuffer) : Framebuffer :=
  if glyphFits x y then
    match font code with
    | none => fb
    | some g => blitColumns (y / 8) x (g.columns.map (glyphCell color)) fb
  else fb

/-- The `next_x` that `draw_char(x, y, code)` returns (R82). -/
def nextX (x y code : Nat) : Nat :=
  if glyphFits x y && (font code).isSome then x + Config.glyphW + 1 else x

/-- DRAW_CHAR (R83). -/
def execDrawChar (x y code : Nat) (s : State) : Result :=
  .next { s with fb := drawChar s.color x y code s.fb, result := BitVec.ofNat 8 (nextX x y code) }

/-- CURSOR_Y after a newline (R84); the sum is exact and is stored mod 256, but for the wrap of P_NEWLINE_WRAPS_Y. -/
def newlineY (wraps : Bool) (y size : Nat) : Byte :=
  if wraps && decide (y + 8 * size ≥ Config.height) then 0x00 else BitVec.ofNat 8 (y + 8 * size)

/-- The cursor after a byte drawn as a glyph: the x advance and wrap, then the bottom wrap (R84). -/
def advance (x y size : Nat) : Nat × Nat :=
  let tx := x + 6 * size
  let wrapX := decide (tx ≥ Config.width - Config.glyphW)
  let ty := if wrapX then y + 8 else y
  (if wrapX then 0 else tx, if ty ≥ Config.height then 0 else ty)

/-- The writer primitive `write_byte(ch)` (R84). -/
def writeByte (ch : Nat) (s : State) : State :=
  if ch = 0x0A then
    { s with cursorX := 0x00, cursorY := newlineY s.newlineWrapsY s.cursorY.toNat s.textSize.toNat }
  else if ch = 0x0D then s
  else
    { s with
      fb := drawChar s.color s.cursorX.toNat s.cursorY.toNat ch s.fb
      cursorX := BitVec.ofNat 8 (advance s.cursorX.toNat s.cursorY.toNat s.textSize.toNat).1
      cursorY := BitVec.ofNat 8 (advance s.cursorX.toNat s.cursorY.toNat s.textSize.toNat).2 }

/-- WRITE_BYTE (R85). -/
def execWriteByte (b : Nat) (s : State) : Result := .next (writeByte b s)

/-- SET_CURSOR (R86). -/
def execSetCursor (x y : Nat) (s : State) : Result :=
  .next { s with cursorX := operandByte x, cursorY := operandByte y }

/-- SET_TEXT_ATTR: TEXT_COLOR takes the color bit, its other bits are 0 (R87). -/
def execSetTextAttr (size : Nat) (color : Bool) (s : State) : Result :=
  .next { s with textSize := operandByte size, textColor := operandBit color }

end Sys2Proof.Machine
end

