-- ==== Sys2Proof/Machine/LineEngine.lean ====
section
/-! DEFINITION. The bresenham_line_engine: DRAW_LINE, DRAW_HLINE, DRAW_VLINE, DRAW_TRIANGLE (41_line_engine.md). -/

namespace Sys2Proof.Machine

/-- A line's two endpoints. -/
structure Segment where
  x0 : Nat
  y0 : Nat
  x1 : Nat
  y1 : Nat
deriving DecidableEq, Repr

/-- The line is steep: it runs further in y than in x (R74). -/
def Segment.steep (g : Segment) : Bool := decide (absdiff g.y1 g.y0 > absdiff g.x1 g.x0)

/-- Swap the roles of x and y of a steep line (R74). -/
def Segment.swapRoles (g : Segment) : Segment :=
  if g.steep then { x0 := g.y0, y0 := g.x0, x1 := g.y1, y1 := g.x1 } else g

/-- Swap the endpoints so that `x0 <= x1` (R74). -/
def Segment.swapEnds (g : Segment) : Segment :=
  if g.x0 > g.x1 then { x0 := g.x1, y0 := g.y1, x1 := g.x0, y1 := g.y0 } else g

/-- The segment the inner loop runs over: roles swapped, then endpoints (R74). -/
def Segment.major (g : Segment) : Segment := g.swapRoles.swapEnds

/-- One iteration's update of `y` and `err` (R74): `err` takes `dy`, and when `2*err >= dx`, `y` steps and `err` gives
`dx` back. -/
def lineNext (dx dy ystep y err : Int) : Int × Int :=
  if 2 * (err + dy) ≥ dx then (y + ystep, err + dy - dx) else (y, err + dy)

/-- `y` and `err` after `k` iterations of the loop (R74). -/
def lineIter (dx dy ystep : Int) : Nat → Int × Int → Int × Int
  | 0, p => p
  | k + 1, p => lineIter dx dy ystep k (lineNext dx dy ystep p.1 p.2)

/-- The points the loop plots in its next `n` iterations, in order (R74). -/
def lineLoop (steep : Bool) (dx dy ystep : Int) : Nat → Nat → Int → Int → List (Nat × Nat)
  | 0, _, _, _ => []
  | n + 1, x, y, err =>
    (if steep then (y.toNat, x) else (x, y.toNat))
      :: lineLoop steep dx dy ystep n (x + 1) (lineNext dx dy ystep y err).1
        (lineNext dx dy ystep y err).2

/-- The step of y (R74). -/
def Segment.ystep (g : Segment) : Int := if g.y0 < g.y1 then 1 else -1

/-- The points that `line(x0, y0, x1, y1, c)` plots, in order (R74). The loop is half-open: `x1` is not visited. -/
def linePoints (x0 y0 x1 y1 : Nat) : List (Nat × Nat) :=
  let given : Segment := { x0 := x0, y0 := y0, x1 := x1, y1 := y1 }
  let g := given.major
  lineLoop given.steep (g.x1 - g.x0 : Nat) (absdiff g.y1 g.y0) g.ystep (g.x1 - g.x0) g.x0 g.y0 0

/-- Plot points in order; a point off the display is clipped (R73). -/
def plotAll (c : Bool) (points : List (Nat × Nat)) (fb : Framebuffer) : Framebuffer :=
  points.foldl (fun fb p => setPixel p.1 p.2 c fb) fb

/-- The line primitive `line(x0, y0, x1, y1, c)` (R74). -/
def line (x0 y0 x1 y1 : Nat) (c : Bool) (fb : Framebuffer) : Framebuffer :=
  plotAll c (linePoints x0 y0 x1 y1) fb

/-- DRAW_LINE (R78). -/
def execDrawLine (x0 y0 x1 y1 : Nat) (c : Bool) (s : State) : Result :=
  .next { s with fb := line x0 y0 x1 y1 c s.fb }

/-- DRAW_HLINE: a zero length is a no-op (R79). -/
def execDrawHline (x y w : Nat) (c : Bool) (s : State) : Result :=
  if w = 0 then .next s else .next { s with fb := line x y (lineEnd x w) y c s.fb }

/-- DRAW_VLINE: a zero length is a no-op (R80). -/
def execDrawVline (x y h : Nat) (c : Bool) (s : State) : Result :=
  if h = 0 then .next s else .next { s with fb := line x y x (lineEnd y h) c s.fb }

/-- DRAW_TRIANGLE: the closed path p1, p2, p3, p1 (R81). -/
def execDrawTriangle (x1 y1 x2 y2 x3 y3 : Nat) (c : Bool) (s : State) : Result :=
  .next { s with fb := line x3 y3 x1 y1 c (line x2 y2 x3 y3 c (line x1 y1 x2 y2 c s.fb)) }

end Sys2Proof.Machine
end

