-- ==== Sys2Proof/Machine/Serializer.lean ====
section
/-! DEFINITION. The display_serializer: INIT, SET_CONTRAST, FLUSH (43_serializer.md). -/

namespace Sys2Proof.Machine

/-- FUNCSET_EXT (R94). -/
def funcsetExt : Byte := 0x21

/-- FUNCSET_BASIC (R94). -/
def funcsetBasic : Byte := 0x20

/-- BIAS(bs) (R94). -/
def biasByte (bs : BitVec 3) : Byte := 0x10 ||| bs.zeroExtend 8

/-- VOP(v) (R94). -/
def vopByte (v : Nat) : Byte := 0x80 ||| BitVec.ofNat 8 v

/-- DISP_NORMAL (R94). -/
def dispNormal : Byte := 0x0C

/-- SET_Y(p) (R94). -/
def setYByte (p : Nat) : Byte := 0x40 ||| BitVec.ofNat 8 p

/-- SET_X(c) (R94). -/
def setXByte (c : Nat) : Byte := 0x80 ||| BitVec.ofNat 8 c

/-- What INIT emits: the backlight, the reset pulse and five command bytes (R96). -/
def initItems (contrast : Nat) : List ByteEvent :=
  [.other (.set .bl Config.backlight),
    .other (.set .rst false),
    .other (.delay Config.resetHold),
    .other (.set .rst true),
    .xfer .cmd funcsetExt,
    .xfer .cmd (biasByte Config.bias),
    .xfer .cmd (vopByte (clamp contrast)),
    .xfer .cmd funcsetBasic,
    .xfer .cmd dispNormal]

/-- What SET_CONTRAST emits (R97). -/
def contrastItems (contrast : Nat) : List ByteEvent :=
  [.xfer .cmd funcsetExt, .xfer .cmd (vopByte (clamp contrast)), .xfer .cmd funcsetBasic]

/-- What FLUSH emits for page `p`: its address, column 0, and its 84 cells (R98). -/
def pageItems (fb : Framebuffer) (p : Nat) : List ByteEvent :=
  [.xfer .cmd (setYByte p), .xfer .cmd (setXByte 0)]
    ++ (List.range Config.width).map (fun c => .xfer .data (fb.cell p c))

/-- What FLUSH emits: the six pages in order, then the trailing page address 0 (R98, R99). -/
def flushItems (fb : Framebuffer) : List ByteEvent :=
  (List.range Config.pages).flatMap (pageItems fb) ++ [.xfer .cmd (setYByte 0)]

/-- CONTRAST at the clamped value (R96, R97). -/
def storeContrast (contrast : Nat) (s : State) : State :=
  { s with contrast := BitVec.ofNat 8 (clamp contrast) }

/-- STATUS.READY <- 1 (R96). -/
def becomeReady (s : State) : State := { s with status := statusSet s.status readyMask }

/-- Run a command that needs the ready state; before INIT it raises NotReady instead (R97, R98, R107). -/
def whenReady (run : State → Result) (s : State) : Result :=
  if s.ready then run s else .next (raise .notReady s)

/-- INIT, in either state of the serializer (R96). -/
def execInit (contrast : Nat) (s : State) : Result :=
  emitThen (initItems contrast) (fun t => becomeReady (storeContrast contrast t)) s

/-- SET_CONTRAST (R97). -/
def execSetContrast (contrast : Nat) (s : State) : Result :=
  whenReady (emitThen (contrastItems contrast) (storeContrast contrast)) s

/-- FLUSH: the cells as they stand (R98). -/
def execFlush (s : State) : Result := whenReady (emitThen (flushItems s.fb) (fun t => t)) s

end Sys2Proof.Machine
end

