-- ==== Sys2Proof/Machine/Dispatch.lean ====
section
/-! DEFINITION. One command executed: one arm per constructor of Instr (rules R55, R62, 30_encoding.md). -/

namespace Sys2Proof.Machine

def exec (i : Instr) (s : State) : Host.Outcome State Fault Refusal :=
  match i with
  | .nop => Sys2Proof.Machine.execNop s
  | .clear => Sys2Proof.Machine.execClear s
  | .setPixel x y on => Sys2Proof.Machine.execSetPixel x y on s
  | .drawLine x0 y0 x1 y1 c => Sys2Proof.Machine.execDrawLine x0 y0 x1 y1 c s
  | .drawHline x y w c => Sys2Proof.Machine.execDrawHline x y w c s
  | .drawVline x y h c => Sys2Proof.Machine.execDrawVline x y h c s
  | .drawTriangle x1 y1 x2 y2 x3 y3 c => Sys2Proof.Machine.execDrawTriangle x1 y1 x2 y2 x3 y3 c s
  | .drawChar x y code => Sys2Proof.Machine.execDrawChar x y code s
  | .writeByte b => Sys2Proof.Machine.execWriteByte b s
  | .setCursor x y => Sys2Proof.Machine.execSetCursor x y s
  | .setTextAttr size color => Sys2Proof.Machine.execSetTextAttr size color s
  | .init contrast => Sys2Proof.Machine.execInit contrast s
  | .setContrast contrast => Sys2Proof.Machine.execSetContrast contrast s
  | .flush => Sys2Proof.Machine.execFlush s

end Sys2Proof.Machine
end

