-- ==== Sys2Proof/Machine/HostBus.lean ====
section
/-! DEFINITION. The host bus: the address map, host reads and writes, command issue, and the order in which host events are
served (20_memory.md; rules R62, R63 of 30_encoding.md; rule R120 of 70_reset_and_hazards.md). -/

namespace Sys2Proof.Machine

/-- What `MemRead(a, 1)` returns: an aperture cell, a register with the fields of R17, or 0x00 for CMD and reserved
addresses (R40, R42, R43). -/
def hostRead (a : HostAddr) (s : State) : Byte :=
  if a.toNat < Config.cells then s.fb.read a.toNat
  else
    match a.toNat with
    | 0x201 => s.args.arg0
    | 0x202 => s.args.arg1
    | 0x203 => s.args.arg2
    | 0x204 => s.args.arg3
    | 0x205 => s.args.arg4
    | 0x206 => s.args.arg5
    | 0x207 => s.args.arg6
    | 0x208 => s.status
    | 0x209 => s.result
    | 0x20A => s.cursorX
    | 0x20B => s.cursorY
    | 0x20C => s.textSize
    | 0x20D => s.textColor
    | 0x20E => s.contrast
    | 0x20F => s.lines.toByte
    | _ => 0x00

/-- Command issue: a write of `v` to CMD executes the command of the word that the operand registers and `v` make, or
raises IllegalCommand (R62, R106). -/
def issue (v : Byte) (s : State) : Result :=
  match decodeWord (commandWord s.args v) with
  | .ok i => exec i s
  | .error _ => .next (raise .illegalCommand s)

/-- Store a byte into ARGk (R43). -/
def storeArg (k : Nat) (v : Byte) (s : State) : State := { s with args := s.args.set k v }

/-- What `MemWrite(a, 1, v)` does: store an aperture cell, issue a command, store an operand byte, clear STATUS bits, or
nothing (R40, R41, R43). -/
def hostWrite (a : HostAddr) (v : Byte) (s : State) : Result :=
  if a.toNat < Config.cells then .next { s with fb := s.fb.write a.toNat v }
  else
    match a.toNat with
    | 0x200 => issue v s
    | 0x201 => .next (storeArg 0 v s)
    | 0x202 => .next (storeArg 1 v s)
    | 0x203 => .next (storeArg 2 v s)
    | 0x204 => .next (storeArg 3 v s)
    | 0x205 => .next (storeArg 4 v s)
    | 0x206 => .next (storeArg 5 v s)
    | 0x207 => .next (storeArg 6 v s)
    | 0x208 => .next { s with status := statusW1C s.status v }
    | _ => .next s

/-- Serve one host event. An access of another width than one byte is refused by name (R38). -/
def serve (e : HostEvent) (s : State) : Result :=
  match e with
  | .read a nbytes =>
    if nbytes = 1 then .next { s with readLog := s.readLog ++ [hostRead a s] }
    else .refused (.accessWidth nbytes)
  | .write a nbytes v => if nbytes = 1 then hostWrite a v s else .refused (.accessWidth nbytes)
  | .blockReset => .next (blockReset s)

/-- Take the next host event off the list and serve it. With no event pending the block is idle (R120, R131; log 7). In a
stalled state no host access starts; only a block reset goes on (R63, R101; log 6). -/
def serveNext (s : State) : Result :=
  match s.stalled, s.pending with
  | false, [] => .next s
  | false, e :: rest => serve e { s with pending := rest }
  | true, .blockReset :: rest => serve .blockReset { s with pending := rest }
  | true, _ => .fault .signallingStuck

/-- The operand registers at seven bytes. -/
def argsOfBytes (bs : List Byte) : Args where
  arg0 := bs.getD 0 0x00
  arg1 := bs.getD 1 0x00
  arg2 := bs.getD 2 0x00
  arg3 := bs.getD 3 0x00
  arg4 := bs.getD 4 0x00
  arg5 := bs.getD 5 0x00
  arg6 := bs.getD 6 0x00

/-- The state in which the next step issues the command word of these eight bytes: the operand registers hold bytes 1 to
7, and the next host event is the write of byte 0 to CMD (R52, R62; log 1). -/
def withCommandBytes (s : State) (bs : List Byte) : State :=
  { s with
    args := argsOfBytes bs.tail
    stalled := false
    pending := .write 0x200 1 (bs.headD 0x00) :: s.pending }

end Sys2Proof.Machine
end

