-- ==== Sys2Proof/Machine/Step.lean ====
section
/-! DEFINITION. One step of the machine: one host event is served (rules R15, R47, R63). -/

namespace Sys2Proof.Machine

/-- One step: the next host event. A write to CMD runs its command whole (R63). -/
def step (s : State) : Host.Outcome State Fault Refusal := serveNext s

/-- The state with an instruction, numbered as spec/opcode_table.json numbers it, as the command the next step runs. -/
def State.withFetchWord (s : State) (nbits w : Nat) : State :=
  withCommandBytes s (tableBytes nbits w)

end Sys2Proof.Machine
end

