-- ==== Sys2Proof/Machine/Assembler.lean ====
section
/-! DEFINITION. The FBC assembler: the host accesses a command or a pseudo-instruction expands to, and the text syntax
(rules R64 to R67, 30_encoding.md). -/

namespace Sys2Proof.Machine

/-- What the assembler takes: a command, or one of the four pseudo-instructions (R65, R66, R67). -/
inductive Source where
  | command (i : Instr)
  | loadBitmap (bytes : List Nat)
  | writeString (x y : Nat) (s : List Nat)
  | readPixel (x y : Nat)
  | clearStatus
deriving DecidableEq, Repr

/-- The writes of ARG bytes to consecutive operand registers from ARG`k` on (R64). -/
def argWrites (k : Nat) : List Byte → List HostEvent
  | [] => []
  | b :: bs => .write (BitVec.ofNat 10 (0x201 + k)) 1 b :: argWrites (k + 1) bs

/-- The host writes of one command: each ARG byte its format names, then the opcode to CMD (R64). -/
def hostWrites (i : Instr) : List HostEvent :=
  argWrites 0 i.argBytes ++ [.write 0x200 1 i.opcode]

/-- The aperture writes of a flat bitmap, from flat index `k` on (R65). -/
def bitmapWrites (k : Nat) : List Nat → List HostEvent
  | [] => []
  | b :: bs => .write (BitVec.ofNat 10 k) 1 (operandByte b) :: bitmapWrites (k + 1) bs

/-- The WRITE_BYTE commands of a byte string (R66). -/
def stringWrites : List Nat → List HostEvent
  | [] => []
  | b :: bs => hostWrites (.writeByte b) ++ stringWrites bs

/-- The host accesses the assembler makes; `none`: it refuses the source (R64, R65, R67). -/
def assemble : Source → Option (List HostEvent)
  | .command i => if i.wellFormed then some (hostWrites i) else none
  | .loadBitmap bytes =>
    if bytes.length = Config.cells ∧ bytes.all isByte then some (bitmapWrites 0 bytes) else none
  | .writeString x y s =>
    if isByte x && isByte y && s.all isByte then
      some (hostWrites (.setCursor x y) ++ stringWrites s)
    else none
  | .readPixel x y =>
    if onDisplay x y then some [.read (BitVec.ofNat 10 (cellIndex (y / 8) x)) 1] else none
  | .clearStatus => some [.write 0x208 1 0x03]

/-- READ_PIXEL's result in the byte its read returns: bit `y mod 8`, true when on (R67). -/
def readPixelResult (y : Nat) (v : Byte) : Bool := v.getLsbD (y % 8)

/-! ## Text -/

/-- A piece of assembler text. -/
inductive Token where
  | word (w : String)
  | num (n : Nat)
  | str (bytes : List Nat)
  | comma
deriving DecidableEq, Repr

/-- The value of a digit character, in base 10 or 16. -/
def digitValue (c : Char) : Option Nat :=
  if '0' ≤ c ∧ c ≤ '9' then some (c.toNat - 48)
  else if 'a' ≤ c ∧ c ≤ 'f' then some (c.toNat - 87)
  else if 'A' ≤ c ∧ c ≤ 'F' then some (c.toNat - 55)
  else none

/-- The number that digits of a base write; at least one digit, each below the base. -/
def digits (base : Nat) : Option Nat → List Char → Option Nat
  | acc, [] => acc
  | acc, c :: cs =>
    match digitValue c with
    | some d => if d < base then digits base (some (acc.getD 0 * base + d)) cs else none
    | none => none

/-- A decimal or `0x` hexadecimal number (R64). -/
def number : List Char → Option Nat
  | '0' :: 'x' :: cs => digits 16 none cs
  | cs => digits 10 none cs

/-- One character of a character or string literal and the text after it: an ASCII character, or the escapes for 0x0A
and 0x0D (R64). DESIGN CHOICE, R64 being silent on it: a backslash that begins neither escape is refused (log 18). -/
def literalChar : List Char → Option (Nat × List Char)
  | '\\' :: 'n' :: cs => some (0x0A, cs)
  | '\\' :: 'r' :: cs => some (0x0D, cs)
  | '\\' :: _ => none
  | c :: cs => if c.toNat < 128 then some (c.toNat, cs) else none
  | [] => none

/-- The bytes of a string literal after its opening quote, and the text after its closing quote (log 18). -/
def stringLit : Nat → List Char → Option (List Nat × List Char)
  | _, '"' :: cs => some ([], cs)
  | 0, _ => none
  | fuel + 1, cs =>
    match literalChar cs with
    | none => none
    | some (b, rest) =>
      match stringLit fuel rest with
      | none => none
      | some (bs, after) => some (b :: bs, after)

/-- A character of a number or a mnemonic. -/
def wordChar (c : Char) : Bool :=
  (digitValue c).isSome || c = '_' || decide ('A' ≤ c ∧ c ≤ 'Z') || decide ('a' ≤ c ∧ c ≤ 'z')

/-- Cut text into tokens; the fuel bounds their number. -/
def lex : Nat → List Char → Option (List Token)
  | _, [] => some []
  | 0, _ :: _ => none
  | fuel + 1, c :: cs =>
    if c = ' ' then lex fuel cs
    else if c = ',' then (lex fuel cs).map (Token.comma :: ·)
    else if c = '"' then
      match stringLit fuel cs with
      | some (bs, rest) => (lex fuel rest).map (Token.str bs :: ·)
      | none => none
    else if c = '\'' then
      match literalChar cs with
      | some (b, '\'' :: rest) => (lex fuel rest).map (Token.num b :: ·)
      | _ => none
    else if wordChar c then
      let w := (c :: cs).takeWhile wordChar
      let rest := (c :: cs).dropWhile wordChar
      if '0' ≤ c ∧ c ≤ '9' then
        match number w with
        | some n => (lex fuel rest).map (Token.num n :: ·)
        | none => none
      else (lex fuel rest).map (Token.word (String.ofList w) :: ·)
    else none

/-- An operand: a number, or the string of WRITE_STRING. -/
inductive Operand where
  | num (n : Nat)
  | str (bytes : List Nat)
deriving DecidableEq, Repr

/-- A token that is an operand. -/
def Token.operand : Token → Option Operand
  | .num n => some (.num n)
  | .str bs => some (.str bs)
  | .word _ => none
  | .comma => none

/-- Operands separated by single commas. -/
def operandList : List Token → Option (List Operand)
  | [] => some []
  | [t] => t.operand.map fun o => [o]
  | t :: .comma :: u :: ts =>
    match t.operand, operandList (u :: ts) with
    | some o, some os => some (o :: os)
    | _, _ => none
  | _ => none

/-- A bit operand is 0 or 1 (R64). DESIGN CHOICE, R64 giving no spelling of it: any numeric token of value 0 or 1 is taken,
a decimal or `0x` number or a character literal (log 18). -/
def bitOperand : Nat → Option Bool
  | 0 => some false
  | 1 => some true
  | _ => none

/-- The numbers of operands that are all numbers. -/
def numbers : List Operand → Option (List Nat)
  | [] => some []
  | .num n :: os => (numbers os).map (n :: ·)
  | .str _ :: _ => none

/-- The source that a mnemonic and its numeric operands write; the operands stand in format order (R53, R64). -/
def sourceOfNumbers (m : String) (ops : List Nat) : Option Source :=
  match ops with
  | [] =>
    if m = "NOP" then some (.command .nop)
    else if m = "CLEAR" then some (.command .clear)
    else if m = "FLUSH" then some (.command .flush)
    else if m = "CLEAR_STATUS" then some .clearStatus
    else none
  | [a] =>
    if m = "WRITE_BYTE" then some (.command (.writeByte a))
    else if m = "INIT" then some (.command (.init a))
    else if m = "SET_CONTRAST" then some (.command (.setContrast a))
    else none
  | [a, b] =>
    if m = "SET_CURSOR" then some (.command (.setCursor a b))
    else if m = "SET_TEXT_ATTR" then (bitOperand b).map fun c => .command (.setTextAttr a c)
    else if m = "READ_PIXEL" then some (.readPixel a b)
    else none
  | [a, b, c] =>
    if m = "SET_PIXEL" then (bitOperand c).map fun on => .command (.setPixel a b on)
    else if m = "DRAW_CHAR" then some (.command (.drawChar a b c))
    else none
  | [a, b, n, c] =>
    if m = "DRAW_HLINE" then (bitOperand c).map fun c => .command (.drawHline a b n c)
    else if m = "DRAW_VLINE" then (bitOperand c).map fun c => .command (.drawVline a b n c)
    else none
  | [x0, y0, x1, y1, c] =>
    if m = "DRAW_LINE" then (bitOperand c).map fun c => .command (.drawLine x0 y0 x1 y1 c) else none
  | [x1, y1, x2, y2, x3, y3, c] =>
    if m = "DRAW_TRIANGLE" then
      (bitOperand c).map fun c => .command (.drawTriangle x1 y1 x2 y2 x3 y3 c)
    else none
  | _ => none

/-- The source that a line of tokens writes: a mnemonic, then its operands (R64 to R67; log 18). -/
def sourceOfTokens : List Token → Option Source
  | .word m :: ts =>
    match operandList ts with
    | some [.num x, .num y, .str s] => if m = "WRITE_STRING" then some (.writeString x y s) else none
    | some ops =>
      match numbers ops with
      | some ns => if m = "LOAD_BITMAP" then some (.loadBitmap ns) else sourceOfNumbers m ns
      | none => none
    | none => none
  | _ => none

/-- The source that a line of assembler text writes. -/
def parseLine (text : List Char) : Option Source :=
  match lex text.length text with
  | some ts => sourceOfTokens ts
  | none => none

end Sys2Proof.Machine
end

