-- ==== Sys2Proof/Safety.lean ====
section
/-! DEFINITION. What claims are stated in terms of: the form every reachable state has, the byte-level reading of the trace
(rule R93), the display's instruction set (rule R103), and a receiver that samples the serial lines (rules R92, R118),
and runs of steps and of commands. -/

namespace Sys2Proof.Machine

/-- The line levels that the trace leaves, from the levels after block reset (R29, R35, R90). -/
def State.linesOfTrace (s : State) : Lines := Lines.reset.applyAll s.trace

/-- The form of a state: the framebuffer's memory is canonical, the bits the register map shows as 0 are 0 (R17), the
lines stand where the trace left them (R29), and between commands the serial clock is low and chip-select is off
(R35, R92). -/
structure State.Form (s : State) : Prop where
  mem_wf : Memory.wf s.fb.mem = true
  status_reserved : s.status &&& 0xF8 = 0
  textColor_reserved : s.textColor &&& 0xFE = 0
  contrast_reserved : s.contrast &&& 0x80 = 0
  lines_eq : s.lines = s.linesOfTrace
  idle_lines : s.stalled = false → s.lines.sclk = false ∧ s.lines.sce = true

/-- The items between transfers are the reset and backlight lines and delays, as rule R93 says. -/
def ByteEvent.proper : ByteEvent → Bool
  | .xfer _ _ => true
  | .other (.set .rst _) => true
  | .other (.set .bl _) => true
  | .other (.delay _) => true
  | .other (.set .sdin _) => false
  | .other (.set .sclk _) => false
  | .other (.set .dc _) => false
  | .other (.set .sce _) => false

/-- A command byte that selects an instruction set: function set, 0x20 to 0x27 (R94). -/
def isFunctionSet (b : Byte) : Bool := decide (b &&& 0xF8 = 0x20)

/-- The display's instruction set after one item: `some true` extended, `some false` basic, `none` not known. A function
set selects it by its bit 0 (R94), and a reset of the display makes it unknown until the next function set (R120). -/
def deviceSetAfter (h : Option Bool) : ByteEvent → Option Bool
  | .xfer .cmd b => if isFunctionSet b then some (b.getLsbD 0) else h
  | .xfer .data _ => h
  | .other (.set .rst false) => none
  | .other _ => h

/-- The display's instruction set after a byte-level trace from block reset (R94, R103, R120). -/
def deviceSet (items : List ByteEvent) : Option Bool := items.foldl deviceSetAfter none

/-- The serializer's session (R28, R102, R103): while no command waits, the trace is made of whole items; before the
first INIT it is empty, and in the ready state the display is in its basic instruction set. -/
def State.Session (s : State) : Prop :=
  s.stalled = false →
    ∃ items : List ByteEvent,
      s.trace = expandAll items ∧ items.all ByteEvent.proper = true ∧
      (s.ready = false → items = []) ∧
      (s.ready = true → deviceSet items = some false)

/-- A receiver of the serial lines: the levels it sees, the bits of the byte it is shifting in, first bit first, and the
bytes received with their mode. It samples SDIN when SCLK rises while SCE is asserted at 0 (R92, R118; log 21). -/
structure Receiver where
  lines : Lines
  bits : List Bool
  bytes : List (Mode × Byte)
deriving DecidableEq, Repr

/-- The number that bits write, most significant bit first (R45(e)). -/
def bitsToByte (bits : List Bool) : Byte :=
  bits.foldl (fun v b => (v <<< 1) ||| (BitVec.ofBool b).zeroExtend 8) 0#8

/-- The receiver after one event. -/
def Receiver.after (r : Receiver) : Event → Receiver
  | .delay _ => r
  | .set line level =>
    if line = .sclk ∧ level = true ∧ r.lines.sclk = false ∧ r.lines.sce = false then
      if r.bits.length = 7 then
        { lines := r.lines.set line level
          bits := []
          bytes := r.bytes
            ++ [(if r.lines.dc then Mode.data else Mode.cmd, bitsToByte (r.bits ++ [r.lines.sdin]))] }
      else { r with lines := r.lines.set line level, bits := r.bits ++ [r.lines.sdin] }
    else { r with lines := r.lines.set line level }

/-- The receiver after a list of events. -/
def Receiver.afterAll (r : Receiver) (es : List Event) : Receiver := es.foldl Receiver.after r

/-- The bytes that a byte-level trace transfers, in order. -/
def transferred : List ByteEvent → List (Mode × Byte)
  | [] => []
  | .xfer m b :: items => (m, b) :: transferred items
  | .other _ :: items => transferred items

/-- How many items transfer a byte in the given mode (R104). -/
def transferCount (m : Mode) (items : List ByteEvent) : Nat :=
  ((transferred items).filter fun p => decide (p.1 = m)).length

/-- How many items are events outside any transfer (R104). -/
def otherCount (items : List ByteEvent) : Nat := items.length - (transferred items).length

/-- The opcode values of the map of R55. -/
def definedOpcodes : List Nat :=
  [0x00, 0x01, 0x02, 0x10, 0x11, 0x12, 0x13, 0x20, 0x21, 0x22, 0x23, 0x30, 0x31, 0x32]

/-- The opcodes of the commands that may change the framebuffer (R23). -/
def drawingOpcodes : List Nat := [0x01, 0x02, 0x10, 0x11, 0x12, 0x13, 0x20, 0x21]

/-- The commands that emit output events; every other command emits none (R104). -/
def isSerializer : Instr → Bool
  | .nop => false
  | .clear => false
  | .setPixel _ _ _ => false
  | .drawLine _ _ _ _ _ => false
  | .drawHline _ _ _ _ => false
  | .drawVline _ _ _ _ => false
  | .drawTriangle _ _ _ _ _ _ _ => false
  | .drawChar _ _ _ => false
  | .writeByte _ => false
  | .setCursor _ _ => false
  | .setTextAttr _ _ => false
  | .init _ => true
  | .setContrast _ => true
  | .flush => true

/-- Steps in a row, as long as each gives a next state. -/
def stepMany : Nat → State → Result
  | 0, s => .next s
  | n + 1, s =>
    match step s with
    | .next t => stepMany n t
    | .fault r => .fault r
    | .refused r => .refused r

/-- Commands executed in order, as long as each gives a next state. -/
def execAll : List Instr → State → Result
  | [], s => .next s
  | i :: is, s =>
    match exec i s with
    | .next t => execAll is t
    | .fault r => .fault r
    | .refused r => .refused r

end Sys2Proof.Machine
end

