-- ==== Sys2Proof/Certificates/Slice0/Obligations.lean ====
section
/-! DEFINITION. The statements for the provers, from the numbered rules of the spec. Each is listed in OBLIGATIONS.json. -/

open Sys2Proof
open Sys2Proof.Machine

/-! ## Encoding -/

/-- Decoding the encoded word of any well-formed command gives that command (R52 to R55). -/
def Obligations.DecodeEncodeAgree : Prop :=
  ∀ i : Instr, i.wellFormed = true → decodeWord (encode i) = .ok i

/-- R57. Two words that agree on the opcode and the bits the command's format names decode to the same command, whatever
the other bits hold; a command's effect does not depend on the operand registers, where those bits stand, beyond the
command decoded from them; and no command changes an operand register. -/
def Obligations.UnnamedBitsAreIgnored : Prop :=
  (∀ (i : Instr) (w : BitVec 64), i.wellFormed = true → w &&& i.namedBits = encode i →
    decodeWord w = .ok i) ∧
  (∀ (i : Instr) (s t : State), exec i s = .next t → t.args = s.args ∧
    ∀ a : Args, exec i { s with args := a } = .next { t with args := a })

/-- A word that decodes to a command holds that command's encoding in the bits its format names, and the command is
well-formed (R53, R54). -/
def Obligations.DecodedWordHoldsItsEncoding : Prop :=
  ∀ (w : BitVec 64) (i : Instr), decodeWord w = .ok i →
    i.wellFormed = true ∧ w &&& i.namedBits = encode i

/-- Words written out from the tables of R53 and R55 (95_test_vectors.md, V-E1 to V-E15) decode to their commands. -/
def Obligations.WrittenWordsDecode : Prop :=
  decodeWord 0x00000000012F5302 = .ok (.setPixel 83 47 true) ∧
  decodeWord 0xFFFFFFFFFE2F5302 = .ok (.setPixel 83 47 false) ∧
  decodeWord 0x0000010003000010 = .ok (.drawLine 0 0 3 0 true) ∧
  decodeWord 0x0104000004000013 = .ok (.drawTriangle 0 0 4 0 0 4 true) ∧
  decodeWord 0x0000000041000020 = .ok (.drawChar 0 0 0x41) ∧
  decodeWord 0x000000000000C830 = .ok (.init 200) ∧
  decodeTableWord 24 0x284822 = some (.setCursor 72 40)

/-- R58, R106. A write to CMD of a value that the opcode map does not hold, 242 of the 256 with the reserved 0x14 and 0x33
among them, sets STATUS.ILLEGAL and changes nothing else, whatever the state. -/
def Obligations.UndefinedOpcodeRaisesIllegal : Prop :=
  (∀ (s : State) (v : Byte) (rest : List HostEvent), s.stalled = false →
    s.pending = .write 0x200 1 v :: rest → v.toNat ∉ definedOpcodes →
    step s = .next { s with pending := rest, status := s.status ||| 0x01 }) ∧
  ((List.range 256).filter fun n => decide (n ∉ definedOpcodes)).length = 242 ∧
  0x14 ∉ definedOpcodes ∧ 0x33 ∉ definedOpcodes

/-! ## Issue and the host bus -/

/-- R62. A host write of `v` to CMD makes the word `W` of the operand registers and `v`; a step executes the command that
`W` decodes to, or raises IllegalCommand where it decodes to none. -/
def Obligations.CmdWriteIssuesCommand : Prop :=
  ∀ (s : State) (v : Byte) (rest : List HostEvent) (w : BitVec 64), s.stalled = false →
    s.pending = .write 0x200 1 v :: rest →
    w = s.args.arg6 ++ s.args.arg5 ++ s.args.arg4 ++ s.args.arg3 ++ s.args.arg2 ++ s.args.arg1
      ++ s.args.arg0 ++ v →
    (∀ i : Instr, decodeWord w = .ok i → step s = exec i { s with pending := rest }) ∧
    (∀ r : Reject, decodeWord w = .error r →
      step s = .next { s with pending := rest, status := s.status ||| 0x01 })

/-- The model's own placing of an instruction (log 24): the next step after withFetchWord executes exactly the command
that the decoder reads from the same table word, in a state that differs only in the operand registers. -/
def Obligations.FetchedWordIsExecuted : Prop :=
  ∀ (s : State) (nbits w : Nat) (i : Instr), decodeTableWord nbits w = some i →
    ∃ a : Args, step (s.withFetchWord nbits w) = exec i { s with args := a, stalled := false }

/-- R38. A one-byte read returns one byte and changes nothing else; an access of any other width is refused by name. -/
def Obligations.OtherWidthsAreRefused : Prop :=
  ∀ (s : State) (a : HostAddr) (n : Nat) (v : Byte) (rest : List HostEvent), s.stalled = false →
    (s.pending = .read a 1 :: rest →
      ∃ b : Byte, step s = .next { s with pending := rest, readLog := s.readLog ++ [b] }) ∧
    (s.pending = .read a n :: rest → n ≠ 1 → step s = .refused (.accessWidth n)) ∧
    (s.pending = .write a n v :: rest → n ≠ 1 → step s = .refused (.accessWidth n))

/-- R41. An aperture write sets its one cell and has no other effect. -/
def Obligations.ApertureWriteSetsOneCell : Prop :=
  ∀ (s : State) (a : HostAddr) (v : Byte) (rest : List HostEvent), s.stalled = false →
    a.toNat ≤ 0x1F7 → s.pending = .write a 1 v :: rest →
    ∃ t : State, step s = .next t ∧ t = { s with pending := rest, fb := t.fb } ∧
      t.fb.draw = s.fb.draw ∧
      ∀ p c : Nat, p < 6 → c < 84 →
        t.fb.cell p c = if p = a.toNat / 84 ∧ c = a.toNat % 84 then v else s.fb.cell p c

/-- R42. An aperture read returns its cell and has no side effect. -/
def Obligations.ApertureReadReturnsCell : Prop :=
  ∀ (s : State) (a : HostAddr) (rest : List HostEvent), s.stalled = false →
    a.toNat ≤ 0x1F7 → s.pending = .read a 1 :: rest →
    step s = .next
      { s with
        pending := rest
        readLog := s.readLog ++ [s.fb.cell (a.toNat / 84) (a.toNat % 84)] }

/-- R43. Register and reserved accesses: what each register reads as, that CMD and reserved addresses read 0x00, that
writes to reserved addresses and RO registers are ignored, the W1C bits of STATUS, the stores to ARGk, and that a write to
CMD executes the command its word decodes to. -/
def Obligations.RegisterAndReservedAccesses : Prop :=
  ∀ (s : State) (a : HostAddr) (v : Byte) (rest : List HostEvent), s.stalled = false →
    (0x1F8 ≤ a.toNat → s.pending = .read a 1 :: rest →
      ∃ b : Byte, step s = .next { s with pending := rest, readLog := s.readLog ++ [b] } ∧
        (∀ k : Nat, k < 7 → a.toNat = 0x201 + k → b = s.args.get k) ∧
        (a.toNat = 0x208 → b = s.status) ∧
        (a.toNat = 0x209 → b = s.result) ∧
        (a.toNat = 0x20A → b = s.cursorX) ∧
        (a.toNat = 0x20B → b = s.cursorY) ∧
        (a.toNat = 0x20C → b = s.textSize) ∧
        (a.toNat = 0x20D → b = s.textColor) ∧
        (a.toNat = 0x20E → b = s.contrast) ∧
        (a.toNat = 0x20F → ∀ j : Nat, j < 8 → b.getLsbD j
          = ([s.lines.sdin, s.lines.sclk, s.lines.dc, s.lines.sce, s.lines.rst, s.lines.bl].getD j false)) ∧
        (a.toNat ≤ 0x200 ∨ 0x210 ≤ a.toNat → b = 0x00)) ∧
    (s.pending = .write a 1 v :: rest →
      ((0x1F8 ≤ a.toNat ∧ a.toNat ≤ 0x1FF) ∨ 0x209 ≤ a.toNat →
        step s = .next { s with pending := rest }) ∧
      (a.toNat = 0x208 →
        ∃ t : State, step s = .next t ∧ t = { s with pending := rest, status := t.status } ∧
          t.illegal = (s.illegal && !(v.getLsbD 0)) ∧
          t.notReady = (s.notReady && !(v.getLsbD 1)) ∧
          ∀ j : Nat, 2 ≤ j → t.status.getLsbD j = s.status.getLsbD j) ∧
      (∀ k : Nat, k < 7 → a.toNat = 0x201 + k →
        ∃ t : State, step s = .next t ∧ t = { s with pending := rest, args := t.args } ∧
          ∀ j : Nat, j < 7 → t.args.get j = if j = k then v else s.args.get j) ∧
      (a.toNat = 0x200 →
        (∀ i : Instr, decodeWord (commandWord s.args v) = .ok i →
          step s = exec i { s with pending := rest }) ∧
        (∀ r : Reject, decodeWord (commandWord s.args v) = .error r →
          step s = .next { s with pending := rest, status := s.status ||| 0x01 })))

/-- R44. A read has no side effect on the block and is idempotent; an aperture write stores its byte in its one cell, a
write to ARGk stores its byte there, a write to STATUS clears the bits 1:0 it writes as 1, none has another effect, and
done again none has a further effect; a write to CMD executes its command each time. -/
def Obligations.RepeatedAccesses : Prop :=
  (∀ (s t : State) (a : HostAddr), serve (.read a 1) s = .next t →
    t = { s with readLog := s.readLog ++ [hostRead a s] } ∧
    ∀ b : HostAddr, hostRead b t = hostRead b s) ∧
  (∀ (s : State) (a : HostAddr) (v : Byte), a.toNat ≠ 0x200 → ∃ t : State,
    serve (.write a 1 v) s = .next t ∧ serve (.write a 1 v) t = .next t ∧
    (a.toNat ≤ 0x1F7 → t = { s with fb := s.fb.write a.toNat v } ∧
      ∀ p c : Nat, p < 6 → c < 84 →
        t.fb.cell p c = if p = a.toNat / 84 ∧ c = a.toNat % 84 then v else s.fb.cell p c) ∧
    (0x201 ≤ a.toNat → a.toNat ≤ 0x207 → t = { s with args := t.args } ∧
      ∀ k : Nat, k < 7 → t.args.get k = if a.toNat = 0x201 + k then v else s.args.get k) ∧
    (a.toNat = 0x208 → t = { s with status := statusW1C s.status v } ∧
      ∀ j : Nat, j < 8 → t.status.getLsbD j = (s.status.getLsbD j && !(decide (j < 2) && v.getLsbD j))) ∧
    (0x1F8 ≤ a.toNat → a.toNat < 0x200 ∨ 0x208 < a.toNat → t = s)) ∧
  (∀ (s : State) (v : Byte) (i : Instr), decodeWord (commandWord s.args v) = .ok i →
    serve (.write 0x200 1 v) s = exec i s ∧
    ∀ t : State, exec i s = .next t → serve (.write 0x200 1 v) t = exec i t)

/-! ## Reset -/

/-- R34. The values that block reset sets. -/
def Obligations.ResetRegisterValues : Prop :=
  (∀ k : Nat, k < 7 → State.reset.args.get k = 0x00) ∧
  State.reset.status = 0x00 ∧ State.reset.illegal = false ∧ State.reset.notReady = false ∧
  State.reset.ready = false ∧ State.reset.result = 0x00 ∧
  State.reset.cursorX = 0x00 ∧ State.reset.cursorY = 0x00 ∧
  State.reset.textSize = 0x01 ∧ State.reset.textColor = 0x01 ∧
  State.reset.contrast = 0x00 ∧ State.reset.trace = []

/-- R35. The line levels that block reset sets; LINES reads 0x18 and no event is emitted. The levels are held until a
command that emits events, INIT, SET_CONTRAST or FLUSH, changes them. -/
def Obligations.ResetLineLevels : Prop :=
  (∀ s t : State, s.pending.head? ≠ some .blockReset → step s = .next t → t.lines ≠ s.lines →
    s.pending.head? = some (.write 0x200 1 0x30) ∨ s.pending.head? = some (.write 0x200 1 0x31) ∨
      s.pending.head? = some (.write 0x200 1 0x32)) ∧
  State.reset.lines.sdin = false ∧ State.reset.lines.sclk = false ∧ State.reset.lines.dc = false ∧
  State.reset.lines.sce = true ∧ State.reset.lines.rst = true ∧ State.reset.lines.bl = false ∧
  hostRead 0x20F State.reset = 0x18 ∧ State.reset.trace = []

/-- A block reset, also one of a state in which a command waits, sets every register and line to its reset value, empties
the trace and leaves every cell at a byte of a new draw (R120, R36). That it keeps the host's accesses, the read bytes and
the agent, the draw's number, and that it keeps the part's parameter, are the model's choice (logs 3, 4 and 10). -/
def Obligations.BlockResetFromAnyState : Prop :=
  ∀ (s : State) (rest : List HostEvent), s.pending = .blockReset :: rest →
    step s = .next
      { State.reset with
        fb := { draw := s.fb.draw + 1, mem := [] }
        agent := s.agent
        pending := rest
        readLog := s.readLog
        newlineWrapsY := s.newlineWrapsY } ∧
    ∀ t : State, step s = .next t → ∀ i : Nat, t.fb.read i = Config.fbReset (s.fb.draw + 1) i

/-! ## Framebuffer commands -/

/-- R68. NOP changes nothing. -/
def Obligations.NopChangesNothing : Prop :=
  (∀ w : BitVec 64, w.extractLsb' 0 8 = 0x00#8 → decodeWord w = .ok .nop) ∧
  ∀ s : State, exec .nop s = .next s

/-- R69. CLEAR sets every cell to 0x00 and the cursor to (0, 0) and changes nothing else. -/
def Obligations.ClearZeroesCellsAndCursor : Prop :=
  (∀ w : BitVec 64, w.extractLsb' 0 8 = 0x01#8 → decodeWord w = .ok .clear) ∧
  ∀ s : State, ∃ t : State, exec .clear s = .next t ∧
    t = { s with fb := t.fb, cursorX := 0x00, cursorY := 0x00 } ∧ t.fb.draw = s.fb.draw ∧
    (∀ p c : Nat, p < 6 → c < 84 → t.fb.cell p c = 0x00) ∧
    (∀ x y : Nat, x < 84 → y < 48 → t.fb.pixel x y = false)

/-- R70, R71. SET_PIXEL sets or clears the one pixel at `(x, y)`; off the display it changes nothing; every other pixel,
every other cell and every register keep their values. -/
def Obligations.SetPixelChangesOnePixel : Prop :=
  (∀ w : BitVec 64, w.extractLsb' 0 8 = 0x02#8 →
    decodeWord w = .ok (.setPixel (w.extractLsb' 8 8).toNat (w.extractLsb' 16 8).toNat (w.getLsbD 24))) ∧
  ∀ (x y : Nat) (on : Bool) (s : State), ∃ t : State, exec (.setPixel x y on) s = .next t ∧
    t = { s with fb := t.fb } ∧ t.fb.draw = s.fb.draw ∧
    (84 ≤ x ∨ 48 ≤ y → t.fb = s.fb) ∧
    (∀ px py : Nat, px < 84 → py < 48 →
      t.fb.pixel px py = if px = x ∧ py = y then on else s.fb.pixel px py) ∧
    (∀ p c : Nat, p < 6 → c < 84 → ¬(p = y / 8 ∧ c = x) → t.fb.cell p c = s.fb.cell p c)

/-! ## Line engine -/

/-- DRAW_LINE gives its colour to the pixels of the display that the line plots, and changes nothing else (R73, R78). -/
def Obligations.DrawLinePlotsLinePoints : Prop :=
  (∀ w : BitVec 64, w.extractLsb' 0 8 = 0x10#8 →
    decodeWord w = .ok (.drawLine (w.extractLsb' 8 8).toNat (w.extractLsb' 16 8).toNat
      (w.extractLsb' 24 8).toNat (w.extractLsb' 32 8).toNat (w.getLsbD 40))) ∧
  ∀ (x0 y0 x1 y1 : Nat) (c : Bool) (s : State), ∃ t : State,
    exec (.drawLine x0 y0 x1 y1 c) s = .next t ∧ t = { s with fb := t.fb } ∧ t.fb.draw = s.fb.draw ∧
    ∀ px py : Nat, px < 84 → py < 48 →
      t.fb.pixel px py = if (px, py) ∈ linePoints x0 y0 x1 y1 then c else s.fb.pixel px py

/-- R74. The line primitive's loop. The ends are given by the two swaps: roles of x and y when the line is steep, then the
endpoints so that the first major coordinate is the smaller. Point `k` stands at major coordinate `x0 + k` and minor
coordinate `y` after `k` iterations; an iteration adds `dy` to `err`, and when `2*err >= dx` it steps `y` by `ystep` and
takes `dx` from `err`; the loop plots `dx` points, in order, in the line's colour. -/
def Obligations.LinePointsFollowTheLoop : Prop :=
  ∀ (x0 y0 x1 y1 : Nat) (steep : Bool) (a b g : Segment),
    steep = decide (absdiff y1 y0 > absdiff x1 x0) → a = { x0 := x0, y0 := y0, x1 := x1, y1 := y1 } →
    b = (if steep then { x0 := y0, y0 := x0, x1 := y1, y1 := x1 } else a) →
    g = (if b.x0 > b.x1 then { x0 := b.x1, y0 := b.y1, x1 := b.x0, y1 := b.y0 } else b) →
    (∀ (c : Bool) (fb : Framebuffer), line x0 y0 x1 y1 c fb
      = (linePoints x0 y0 x1 y1).foldl (fun fb p => setPixel p.1 p.2 c fb) fb) ∧
    a.major = g ∧ (linePoints x0 y0 x1 y1).length = g.x1 - g.x0 ∧
    ∃ y err : Nat → Int,
      (∀ k : Nat, k < g.x1 - g.x0 → (linePoints x0 y0 x1 y1)[k]? =
        some (if steep then ((y k).toNat, g.x0 + k) else (g.x0 + k, (y k).toNat))) ∧
      (∀ k : Nat, k < g.x1 - g.x0 → 0 ≤ y k ∧
        y k = (lineIter (g.x1 - g.x0 : Nat) (absdiff g.y1 g.y0) g.ystep k (g.y0, 0)).1) ∧
      y 0 = g.y0 ∧ err 0 = 0 ∧
      ∀ k : Nat,
        (2 * (err k + absdiff g.y1 g.y0) ≥ (g.x1 - g.x0 : Nat) →
          y (k + 1) = y k + (if g.y0 < g.y1 then 1 else -1) ∧
          err (k + 1) = err k + absdiff g.y1 g.y0 - (g.x1 - g.x0 : Nat)) ∧
        (2 * (err k + absdiff g.y1 g.y0) < (g.x1 - g.x0 : Nat) →
          y (k + 1) = y k ∧ err (k + 1) = err k + absdiff g.y1 g.y0)

/-- What the spec infers from R74 in its rule R75: a line plots exactly `dx` points, `dx` the larger difference, one for
each major coordinate from the smaller end up to but not including the larger end; equal endpoints plot nothing. Point `k`
has, with its coordinates exchanged when the line is steep, the minor coordinate that R74's loop has after `k`
iterations. -/
def Obligations.LineExcludesLargerEnd : Prop :=
  ∀ x0 y0 x1 y1 : Nat,
    (∀ (k : Nat) (p : Nat × Nat) (g : Segment), (linePoints x0 y0 x1 y1)[k]? = some p →
      g = (Segment.mk x0 y0 x1 y1).major →
      ((if absdiff y1 y0 > absdiff x1 x0 then (p.2, p.1) else p) : Nat × Nat) =
        (g.x0 + k, (lineIter (g.x1 - g.x0 : Nat) (absdiff g.y1 g.y0) g.ystep k (g.y0, 0)).1.toNat)) ∧
    (linePoints x0 y0 x1 y1).length = max (absdiff x1 x0) (absdiff y1 y0) ∧
    (∀ (k : Nat) (p : Nat × Nat), (linePoints x0 y0 x1 y1)[k]? = some p →
      (absdiff y1 y0 ≤ absdiff x1 x0 → p.1 = min x0 x1 + k ∧ p.1 < max x0 x1) ∧
      (absdiff y1 y0 > absdiff x1 x0 → p.2 = min y0 y1 + k ∧ p.2 < max y0 y1)) ∧
    linePoints x0 y0 x0 y0 = []

/-- What the spec infers from R74 in its rule R76: inside the loop `dy <= dx`, and for `dy = 0` `ystep` is -1; after `k`
iterations `y` is `y0 + ystep*m` with `0 <= m <= dy`, and `m = dy` after `dx` iterations, so for `dy = 0` `y` never moves;
every plotted point lies between the endpoints' coordinates, so `y` never leaves their range. -/
def Obligations.LineMinorStaysInRange : Prop :=
  (∀ g : Segment, absdiff g.major.y1 g.major.y0 ≤ g.major.x1 - g.major.x0 ∧ g.major.x0 ≤ g.major.x1 ∧
    (absdiff g.major.y1 g.major.y0 = 0 → g.major.ystep = -1)) ∧
  (∀ (dx dy : Nat) (ystep y0 : Int), dy ≤ dx → ystep = 1 ∨ ystep = -1 →
    (∀ k : Nat, k ≤ dx → ∃ m : Nat, m ≤ dy ∧
      (lineIter dx dy ystep k (y0, 0)).1 = y0 + ystep * m) ∧
    (lineIter dx dy ystep dx (y0, 0)).1 = y0 + ystep * dy) ∧
  (∀ (x0 y0 x1 y1 : Nat) (p : Nat × Nat), p ∈ linePoints x0 y0 x1 y1 →
    min x0 x1 ≤ p.1 ∧ p.1 ≤ max x0 x1 ∧ min y0 y1 ≤ p.2 ∧ p.2 ≤ max y0 y1)

/-- What the spec infers from R74 in its rule R77: after each iteration `-dx <= 2*err < dx`, before the adjustment
`2*err < 3*dx`, so with `dx <= 255` the absolute value of `2*err` is at most 765 and `err` fits a two's complement register
of 11 and of 16 bits; it does go negative. -/
def Obligations.LineErrorIsBounded : Prop :=
  (∀ (dx dy : Nat) (ystep y0 : Int) (k : Nat), dy ≤ dx → 1 ≤ dx →
    -(dx : Int) ≤ 2 * (lineIter dx dy ystep k (y0, 0)).2 ∧
    2 * (lineIter dx dy ystep k (y0, 0)).2 < dx ∧
    2 * ((lineIter dx dy ystep k (y0, 0)).2 + dy) < 3 * dx ∧
    (dx ≤ 255 → ∀ err : Int,
      err = (lineIter dx dy ystep k (y0, 0)).2 ∨ err = (lineIter dx dy ystep k (y0, 0)).2 + dy →
      -765 ≤ 2 * err ∧ 2 * err ≤ 765 ∧
      (BitVec.ofInt 11 err).toInt = err ∧ (BitVec.ofInt 16 err).toInt = err)) ∧
  (lineIter 3 2 1 1 (0, 0)).2 = -1

/-- Swapping a line's endpoints gives the same points (R74, R78). -/
def Obligations.LineEndpointOrderIsIrrelevant : Prop :=
  ∀ x0 y0 x1 y1 : Nat, linePoints x1 y1 x0 y0 = linePoints x0 y0 x1 y1

/-- R79. DRAW_HLINE of length `w` gives its colour to the pixels `(x, y)` to `(x + w - 2, y)` of the display and changes
nothing else; lengths 0 and 1 change nothing. -/
def Obligations.DrawHlinePlotsRow : Prop :=
  (∀ w : BitVec 64, w.extractLsb' 0 8 = 0x11#8 →
    decodeWord w = .ok (.drawHline (w.extractLsb' 8 8).toNat (w.extractLsb' 16 8).toNat
      (w.extractLsb' 24 8).toNat (w.getLsbD 32))) ∧
  ∀ (x y w : Nat) (c : Bool) (s : State), ∃ t : State, exec (.drawHline x y w c) s = .next t ∧
    t = { s with fb := t.fb } ∧ t.fb.draw = s.fb.draw ∧ (w ≤ 1 → x < 256 → t.fb = s.fb) ∧
    ∀ px py : Nat, px < 84 → py < 48 →
      t.fb.pixel px py = if py = y ∧ x ≤ px ∧ px + 1 < x + w then c else s.fb.pixel px py

/-- R80. DRAW_VLINE of length `h` gives its colour to the pixels `(x, y)` to `(x, y + h - 2)` of the display and changes
nothing else; lengths 0 and 1 change nothing. -/
def Obligations.DrawVlinePlotsColumn : Prop :=
  (∀ w : BitVec 64, w.extractLsb' 0 8 = 0x12#8 →
    decodeWord w = .ok (.drawVline (w.extractLsb' 8 8).toNat (w.extractLsb' 16 8).toNat
      (w.extractLsb' 24 8).toNat (w.getLsbD 32))) ∧
  ∀ (x y h : Nat) (c : Bool) (s : State), ∃ t : State, exec (.drawVline x y h c) s = .next t ∧
    t = { s with fb := t.fb } ∧ t.fb.draw = s.fb.draw ∧ (h ≤ 1 → y < 256 → t.fb = s.fb) ∧
    ∀ px py : Nat, px < 84 → py < 48 →
      t.fb.pixel px py = if px = x ∧ y ≤ py ∧ py + 1 < y + h then c else s.fb.pixel px py

/-- R81. DRAW_TRIANGLE does what its three DRAW_LINE commands do in their order: it gives its colour to the pixels of the
display that its three sides plot and changes nothing else. -/
def Obligations.DrawTrianglePlotsThreeSides : Prop :=
  (∀ w : BitVec 64, w.extractLsb' 0 8 = 0x13#8 →
    decodeWord w = .ok (.drawTriangle (w.extractLsb' 8 8).toNat (w.extractLsb' 16 8).toNat
      (w.extractLsb' 24 8).toNat (w.extractLsb' 32 8).toNat (w.extractLsb' 40 8).toNat
      (w.extractLsb' 48 8).toNat (w.getLsbD 56))) ∧
  ∀ (x1 y1 x2 y2 x3 y3 : Nat) (c : Bool) (s : State), ∃ t : State,
    exec (.drawTriangle x1 y1 x2 y2 x3 y3 c) s = .next t ∧ t = { s with fb := t.fb } ∧
    t.fb.draw = s.fb.draw ∧
    execAll [.drawLine x1 y1 x2 y2 c, .drawLine x2 y2 x3 y3 c, .drawLine x3 y3 x1 y1 c] s = .next t ∧
    ∀ px py : Nat, px < 84 → py < 48 →
      t.fb.pixel px py =
        if (px, py) ∈ linePoints x1 y1 x2 y2 ∨ (px, py) ∈ linePoints x2 y2 x3 y3 ∨
          (px, py) ∈ linePoints x3 y3 x1 y1 then c else s.fb.pixel px py

/-! ## Glyph blit and text -/

/-- R31. The font's domain is 0x20 to 0xB3; the glyph of 0x41 is the given one. -/
def Obligations.FontDomainAndKnownGlyph : Prop :=
  (∀ code : Nat, (font code).isSome = true ↔ 0x20 ≤ code ∧ code ≤ 0xB3) ∧
  (font 0x41).map Config.Glyph.columns = some [0x7E, 0x11, 0x11, 0x11, 0x7E]

/-- R82, R83. DRAW_CHAR: off its bounds or with no glyph nothing is drawn and RESULT is `x`; else the five cells of page
`y div 8` from column `x` on are replaced by the glyph's bytes, complemented when COLOR is 0, every other cell keeps its
byte, and RESULT is `x + 6`. Nothing else changes. -/
def Obligations.DrawCharReplacesFiveCells : Prop :=
  (∀ w : BitVec 64, w.extractLsb' 0 8 = 0x20#8 →
    decodeWord w = .ok (.drawChar (w.extractLsb' 8 8).toNat (w.extractLsb' 16 8).toNat
      (w.extractLsb' 24 8).toNat)) ∧
  ∀ (x y code : Nat) (s : State), x < 256 → ∃ t : State, exec (.drawChar x y code) s = .next t ∧
    t = { s with fb := t.fb, result := t.result } ∧ t.fb.draw = s.fb.draw ∧
    (48 ≤ y ∨ 84 ≤ x + 5 ∨ code < 0x20 ∨ 0xB3 < code → t.fb = s.fb ∧ t.result.toNat = x) ∧
    (y < 48 → x + 5 < 84 → 0x20 ≤ code → code ≤ 0xB3 →
      t.result.toNat = x + 6 ∧
      ∃ g : Config.Glyph, font code = some g ∧
        ∀ p c : Nat, p < 6 → c < 84 →
          t.fb.cell p c =
            if p = y / 8 ∧ x ≤ c ∧ c < x + 5 then
              (if s.textColor.getLsbD 0 then g.columns.getD (c - x) 0 else ~~~(g.columns.getD (c - x) 0))
            else s.fb.cell p c)

/-- R84, R85. WRITE_BYTE: a newline sets x to 0 and adds 8*TEXT_SIZE to y, stored mod 256, but 0 where P_NEWLINE_WRAPS_Y
is set and the sum is at least 48; a carriage return changes nothing; any other byte draws as DRAW_CHAR draws at the
cursor and advances the cursor with the x wrap and the bottom wrap. RESULT and every other register keep their values. -/
def Obligations.WriteByteDrawsAndAdvances : Prop :=
  (∀ w : BitVec 64, w.extractLsb' 0 8 = 0x21#8 →
    decodeWord w = .ok (.writeByte (w.extractLsb' 8 8).toNat)) ∧
  ∀ (b : Nat) (s : State), b < 256 →
    (b = 0x0A → ∃ t : State, exec (.writeByte b) s = .next t ∧
      t = { s with cursorX := 0x00, cursorY := t.cursorY } ∧
      t.cursorY.toNat =
        if s.newlineWrapsY = true ∧ 48 ≤ s.cursorY.toNat + 8 * s.textSize.toNat then 0
        else (s.cursorY.toNat + 8 * s.textSize.toNat) % 256) ∧
    (b = 0x0D → exec (.writeByte b) s = .next s) ∧
    (b ≠ 0x0A → b ≠ 0x0D → ∃ t u : State,
      exec (.drawChar s.cursorX.toNat s.cursorY.toNat b) s = .next u ∧
      exec (.writeByte b) s = .next t ∧
      t = { s with fb := u.fb, cursorX := t.cursorX, cursorY := t.cursorY } ∧
      (s.cursorX.toNat + 6 * s.textSize.toNat < 79 →
        t.cursorX.toNat = s.cursorX.toNat + 6 * s.textSize.toNat ∧
        t.cursorY.toNat = if 48 ≤ s.cursorY.toNat then 0 else s.cursorY.toNat) ∧
      (79 ≤ s.cursorX.toNat + 6 * s.textSize.toNat →
        t.cursorX.toNat = 0 ∧
        t.cursorY.toNat = if 48 ≤ s.cursorY.toNat + 8 then 0 else s.cursorY.toNat + 8))

/-- R86, R87. SET_CURSOR stores the cursor, SET_TEXT_ATTR stores the size and the color bit with the other bits of
TEXT_COLOR 0; neither changes anything else. -/
def Obligations.TextRegisterStores : Prop :=
  (∀ w : BitVec 64, w.extractLsb' 0 8 = 0x22#8 →
    decodeWord w = .ok (.setCursor (w.extractLsb' 8 8).toNat (w.extractLsb' 16 8).toNat)) ∧
  (∀ w : BitVec 64, w.extractLsb' 0 8 = 0x23#8 →
    decodeWord w = .ok (.setTextAttr (w.extractLsb' 8 8).toNat (w.getLsbD 16))) ∧
  (∀ (x y : Nat) (s : State), x < 256 → y < 256 → ∃ t : State, exec (.setCursor x y) s = .next t ∧
    t = { s with cursorX := t.cursorX, cursorY := t.cursorY } ∧
    t.cursorX.toNat = x ∧ t.cursorY.toNat = y) ∧
  (∀ (size : Nat) (color : Bool) (s : State), size < 256 → ∃ t : State,
    exec (.setTextAttr size color) s = .next t ∧
    t = { s with textSize := t.textSize, textColor := t.textColor } ∧
    t.textSize.toNat = size ∧ t.textColor.toNat = if color then 1 else 0)

/-- The text cursor's laws at size 1 (R89(a), R89(b)): after any glyph byte the cursor is on the display, and from (0, 0)
the cursor after `n` glyph bytes is at column 6*(n mod 14) of row 8*((n div 14) mod 6). -/
def Obligations.GlyphBytesWalkTheDisplay : Prop :=
  (∀ (b : Nat) (s : State), b < 256 → b ≠ 0x0A → b ≠ 0x0D → s.textSize = 0x01 →
    ∃ t : State, exec (.writeByte b) s = .next t ∧ t.cursorX.toNat < 79 ∧ t.cursorY.toNat < 48) ∧
  (∀ (bs : List Nat) (s : State), (∀ b ∈ bs, b < 256 ∧ b ≠ 0x0A ∧ b ≠ 0x0D) →
    s.textSize = 0x01 → s.cursorX = 0x00 → s.cursorY = 0x00 →
    ∃ t : State, execAll (bs.map Instr.writeByte) s = .next t ∧
      t.cursorX.toNat = 6 * (bs.length % 14) ∧ t.cursorY.toNat = 8 * (bs.length / 14 % 6))

/-! ## Serializer -/

/-- R92. The 27 events of one byte transfer, in order. -/
def Obligations.TransferEventsInOrder : Prop :=
  ∀ (m : Mode) (b : Byte),
    (xferEvents m b).length = 27 ∧
    (xferEvents m b)[0]? = some (.set .dc (decide (m = .data))) ∧
    (xferEvents m b)[1]? = some (.set .sce false) ∧
    (∀ j : Nat, j < 8 →
      (xferEvents m b)[2 + 3 * j]? = some (.set .sdin (b.getLsbD (7 - j))) ∧
      (xferEvents m b)[3 + 3 * j]? = some (.set .sclk true) ∧
      (xferEvents m b)[4 + 3 * j]? = some (.set .sclk false)) ∧
    (xferEvents m b)[26]? = some (.set .sce true)

/-- R96. INIT, in either state, with an agent that accepts its 139 events: the events in order, CONTRAST at the clamped
value, READY set, and nothing else changed. -/
def Obligations.InitRunsResetSequence : Prop :=
  (∀ w : BitVec 64, w.extractLsb' 0 8 = 0x30#8 →
    decodeWord w = .ok (.init (w.extractLsb' 8 8).toNat)) ∧
  ∀ (c : Nat) (s : State), c < 256 → s.agentAccepts 139 = true → ∃ (t : State) (es : List Event),
    exec (.init c) s = .next t ∧
    t = { s with
      trace := s.trace ++ es
      lines := { sdin := false, sclk := false, dc := false, sce := true, rst := true, bl := Config.backlight }
      contrast := t.contrast
      status := s.status ||| 0x04
      agent := t.agent } ∧
    t.contrast.toNat = min c 0x7F ∧ es.length = 139 ∧
    es = [.set .bl Config.backlight, .set .rst false, .delay Config.resetHold, .set .rst true]
      ++ xferEvents .cmd 0x21 ++ xferEvents .cmd (0x10 ||| Config.bias.zeroExtend 8)
      ++ xferEvents .cmd (0x80 ||| BitVec.ofNat 8 (min c 0x7F)) ++ xferEvents .cmd 0x20
      ++ xferEvents .cmd 0x0C

/-- R97. SET_CONTRAST: before INIT it raises NotReady and changes nothing else; in the ready state, with an agent that
accepts its 81 events, it emits its three transfers and stores the clamped value. -/
def Obligations.SetContrastSendsVop : Prop :=
  (∀ w : BitVec 64, w.extractLsb' 0 8 = 0x31#8 →
    decodeWord w = .ok (.setContrast (w.extractLsb' 8 8).toNat)) ∧
  ∀ (c : Nat) (s : State), c < 256 →
    (s.ready = false → exec (.setContrast c) s = .next { s with status := s.status ||| 0x02 }) ∧
    (s.ready = true → s.agentAccepts 81 = true → ∃ (t : State) (es : List Event),
      exec (.setContrast c) s = .next t ∧
      t = { s with
        trace := s.trace ++ es
        lines := { s.lines with sdin := false, sclk := false, dc := false, sce := true }
        contrast := t.contrast
        agent := t.agent } ∧
      t.contrast.toNat = min c 0x7F ∧ es.length = 81 ∧
      es = xferEvents .cmd 0x21 ++ xferEvents .cmd (0x80 ||| BitVec.ofNat 8 (min c 0x7F))
        ++ xferEvents .cmd 0x20)

/-- R98, R99. FLUSH: before INIT it raises NotReady and changes nothing else; in the ready state, with an agent that
accepts its 13959 events, it sends 517 transfers: for each page its address, column 0 and its 84 cells as they stand, then
the trailing page address 0. No cell and no register changes. -/
def Obligations.FlushSendsEveryCell : Prop :=
  (∀ w : BitVec 64, w.extractLsb' 0 8 = 0x32#8 → decodeWord w = .ok .flush) ∧
  ∀ s : State,
    (s.ready = false → exec .flush s = .next { s with status := s.status ||| 0x02 }) ∧
    (s.ready = true → s.agentAccepts 13959 = true → ∃ (t : State) (items : List ByteEvent),
      exec .flush s = .next t ∧
      t = { s with trace := s.trace ++ expandAll items, lines := t.lines, agent := t.agent } ∧
      t.lines = { s.lines with sdin := false, sclk := false, dc := false, sce := true } ∧
      items.length = 517 ∧ (expandAll items).length = 13959 ∧
      (∀ p : Nat, p < 6 →
        items[86 * p]? = some (.xfer .cmd (0x40 ||| BitVec.ofNat 8 p)) ∧
        items[86 * p + 1]? = some (.xfer .cmd 0x80) ∧
        ∀ c : Nat, c < 84 → items[86 * p + 2 + c]? = some (.xfer .data (s.fb.cell p c))) ∧
      items[516]? = some (.xfer .cmd 0x40))

/-- R107. FLUSH or SET_CONTRAST before the first INIT sets STATUS.NOTREADY and changes nothing else. -/
def Obligations.NotReadyBeforeInit : Prop :=
  ∀ (i : Instr) (s : State), (i = .flush ∨ ∃ c : Nat, i = .setContrast c) → s.ready = false →
    ∃ t : State, exec i s = .next t ∧ t = { s with status := t.status } ∧ t.notReady = true ∧
      t.illegal = s.illegal ∧ t.ready = false

/-- What the spec infers from R92, R96, R97 and R98 in its rule R104: the transfer counts of every command, with an
agent that accepts every event: INIT 5 command transfers and 4 other events, SET_CONTRAST 3, FLUSH 13 and 504 data
transfers, and none for any other command or one that raises. -/
def Obligations.TransferCounts : Prop :=
  (∀ (s : State) (v : Byte) (r : Reject), decodeWord (commandWord s.args v) = .error r → ∃ t : State,
    issue v s = .next t ∧ t.trace = s.trace) ∧
  ∀ (i : Instr) (s : State), s.agent = none → ∃ (t : State) (items : List ByteEvent),
    exec i s = .next t ∧ t.trace = s.trace ++ expandAll items ∧
    (∀ c : Nat, i = .init c →
      transferCount .cmd items = 5 ∧ transferCount .data items = 0 ∧ otherCount items = 4 ∧
      (expandAll items).length = 139) ∧
    (∀ c : Nat, i = .setContrast c → s.ready = true →
      transferCount .cmd items = 3 ∧ transferCount .data items = 0 ∧ otherCount items = 0 ∧
      (expandAll items).length = 81) ∧
    (i = .flush → s.ready = true →
      transferCount .cmd items = 13 ∧ transferCount .data items = 504 ∧ otherCount items = 0 ∧
      (expandAll items).length = 13959) ∧
    (isSerializer i = false ∨ (s.ready = false ∧ ∀ c : Nat, i ≠ .init c) → items = [])

/-- An agent that accepts only `k` events of a command that emits more (R101, V8): the command never completes. The
first `k` of the command's own events appear, in order, the rest of the command is not done, and no host access starts
after it; only a block reset goes on. The form of the wait is the model's choice (logs 5 and 6). -/
def Obligations.UnacceptedEventStallsForEver : Prop :=
  ∀ (i : Instr) (items : List ByteEvent) (n k : Nat) (s : State), s.agent = some k → k < n →
    ((∃ c : Nat, i = .init c ∧ items = initItems c) ∧ n = 139 ∨
      (∃ c : Nat, i = .setContrast c ∧ items = contrastItems c) ∧ n = 81 ∧ s.ready = true ∨
      (i = .flush ∧ items = flushItems s.fb) ∧ n = 13959 ∧ s.ready = true) →
    (expandAll items).length = n ∧
    ∃ (t : State) (es : List Event), exec i s = .next t ∧ es = (expandAll items).take k ∧ es.length = k ∧
      t = { s with trace := s.trace ++ es, lines := s.lines.applyAll es, agent := some 0, stalled := true } ∧
      ((∀ rest : List HostEvent, s.pending ≠ .blockReset :: rest) → step t = .fault .signallingStuck)

/-- What a receiver samples of a byte-level trace is exactly the bytes the trace transfers, each with its mode, in order
(R92, R93, R45(e)); the sampling edge is general knowledge (log 21). -/
def Obligations.ReceiverReadsByteTrace : Prop :=
  ∀ (items : List ByteEvent) (r : Receiver), items.all ByteEvent.proper = true → r.bits = [] →
    r.lines.sclk = false →
    (r.afterAll (expandAll items)).bytes = r.bytes ++ transferred items ∧
    (r.afterAll (expandAll items)).bits = []

/-- The byte-level abstraction of a trace is unique (R93). -/
def Obligations.ByteTraceIsUnique : Prop :=
  ∀ is js : List ByteEvent, is.all ByteEvent.proper = true → js.all ByteEvent.proper = true →
    expandAll is = expandAll js → is = js

/-- In the ready state, at every point of a FLUSH, the display is in its basic instruction set, so its column address is
no VOP command (R103). The premise Session is an invariant of its own. -/
def Obligations.FlushAddressesInBasicSet : Prop :=
  ∀ s : State, s.Session → s.stalled = false → s.ready = true → ∃ sent : List ByteEvent,
    s.trace = expandAll sent ∧
    ∀ n : Nat, deviceSet (sent ++ (flushItems s.fb).take n) = some false

/-! ## Invariants -/

/-- Every step keeps the form of the state: canonical memory, reserved bits 0, lines as the trace left them, clock and
chip-select idle between commands (R17, R29, R35, R90, R92). -/
def Obligations.FormKeptByEveryStep : Prop :=
  ∀ s t : State, s.Form → step s = .next t → t.Form

/-- Every step keeps the serializer's session: whole items on the trace, none before the first INIT, the basic set in the
ready state (R28, R93, R102, R103). -/
def Obligations.SessionKeptByEveryStep : Prop :=
  ∀ s t : State, s.Session → step s = .next t → t.Session

/-- Both invariants hold after block reset. -/
def Obligations.ResetMeetsInvariants : Prop :=
  State.reset.Form ∧ State.reset.Session

/-! ## Whole-machine rules -/

/-- R23. The framebuffer changes only by the eight drawing commands, aperture writes and block reset. FLUSH, INIT and
SET_CONTRAST change no cell, and INIT and SET_CONTRAST do the same whatever the cells hold. -/
def Obligations.FramebufferWriters : Prop :=
  (∀ s t : State, step s = .next t → t.fb ≠ s.fb →
    ∃ (e : HostEvent) (rest : List HostEvent), s.pending = e :: rest ∧
      (e = .blockReset ∨ (∃ (a : HostAddr) (v : Byte), a.toNat ≤ 0x1F7 ∧ e = .write a 1 v) ∨
        ∃ v : Byte, v.toNat ∈ drawingOpcodes ∧ e = .write 0x200 1 v)) ∧
  (∀ (i : Instr) (s t : State), isSerializer i = true → exec i s = .next t → t.fb = s.fb) ∧
  (∀ (i : Instr) (s t : State) (fb : Framebuffer), isSerializer i = true → i ≠ .flush →
    exec i s = .next t → exec i { s with fb := fb } = .next { t with fb := fb })

/-- Which commands write which register (R21, R24, R25, R26, R27): RESULT only DRAW_CHAR; the cursor only CLEAR, WRITE_BYTE
and SET_CURSOR; TEXT_SIZE and TEXT_COLOR only SET_TEXT_ATTR; CONTRAST only INIT and SET_CONTRAST; an ARG register only a
host write to it. Block reset apart, no other step changes them, and a step with no host event to come changes nothing at
all (log 7). -/
def Obligations.RegisterWriters : Prop :=
  ∀ s t : State, s.pending.head? ≠ some .blockReset → step s = .next t →
    (s.pending = [] → t = s) ∧
    (t.result ≠ s.result → s.pending.head? = some (.write 0x200 1 0x20)) ∧
    (t.cursorX ≠ s.cursorX ∨ t.cursorY ≠ s.cursorY →
      s.pending.head? = some (.write 0x200 1 0x01) ∨ s.pending.head? = some (.write 0x200 1 0x21) ∨
        s.pending.head? = some (.write 0x200 1 0x22)) ∧
    (t.textSize ≠ s.textSize ∨ t.textColor ≠ s.textColor →
      s.pending.head? = some (.write 0x200 1 0x23)) ∧
    (t.contrast ≠ s.contrast →
      s.pending.head? = some (.write 0x200 1 0x30) ∨ s.pending.head? = some (.write 0x200 1 0x31)) ∧
    (∀ k : Nat, k < 7 → t.args.get k ≠ s.args.get k →
      ∃ (a : HostAddr) (v : Byte), a.toNat = 0x201 + k ∧ s.pending.head? = some (.write a 1 v))

/-- R20. ILLEGAL is set by an undefined opcode and by nothing else, NOTREADY by FLUSH or SET_CONTRAST while READY is 0 and
by nothing else, READY only by INIT; ILLEGAL and NOTREADY are cleared only by a host W1C write or block reset, READY only
by block reset, which clears all three; bits 7:3 stay 0, and read as 0. This holds of every step, also of one with no host
event to come. -/
def Obligations.StatusBitRules : Prop :=
  ∀ (s t : State) (e : Option HostEvent), s.pending.head? = e → step s = .next t →
    (s.illegal = false → t.illegal = true →
      ∃ v : Byte, v.toNat ∉ definedOpcodes ∧ e = some (.write 0x200 1 v)) ∧
    (s.notReady = false → t.notReady = true →
      s.ready = false ∧ (e = some (.write 0x200 1 0x31) ∨ e = some (.write 0x200 1 0x32))) ∧
    (s.ready = false → t.ready = true → e = some (.write 0x200 1 0x30)) ∧
    (s.illegal = true → t.illegal = false →
      e = some .blockReset ∨ ∃ v : Byte, v.getLsbD 0 = true ∧ e = some (.write 0x208 1 v)) ∧
    (s.notReady = true → t.notReady = false →
      e = some .blockReset ∨ ∃ v : Byte, v.getLsbD 1 = true ∧ e = some (.write 0x208 1 v)) ∧
    (s.ready = true → t.ready = false → e = some .blockReset) ∧
    (∀ v : Byte, v.toNat ∉ definedOpcodes → e = some (.write 0x200 1 v) → t.illegal = true) ∧
    (s.ready = false → e = some (.write 0x200 1 0x31) ∨ e = some (.write 0x200 1 0x32) → t.notReady = true) ∧
    (e = some .blockReset → t.illegal = false ∧ t.notReady = false ∧ t.ready = false) ∧
    (s.status &&& 0xF8 = 0 → t.status &&& 0xF8 = 0 ∧ hostRead 0x208 s &&& 0xF8 = 0)

/-- The trace only grows, and a line's level changes only by the events appended (R29, R30, R90), but for block reset; a
step that serves no CMD write, an idle step among them (log 7), appends none. -/
def Obligations.TraceIsAppendOnly : Prop :=
  ∀ s t : State, s.pending.head? ≠ some .blockReset → step s = .next t →
    ∃ es : List Event, t.trace = s.trace ++ es ∧ t.lines = s.lines.applyAll es ∧
      ((∀ v : Byte, s.pending.head? ≠ some (.write 0x200 1 v)) → es = [])

/-- P_NEWLINE_WRAPS_Y is a parameter of the part (R10): false by default, and no step changes it; and no command but a
newline of WRITE_BYTE depends on it. That State holds it is the model's choice (log 10). -/
def Obligations.NewlineParameterIsFixed : Prop :=
  State.reset.newlineWrapsY = false ∧
  (∀ s t : State, step s = .next t → t.newlineWrapsY = s.newlineWrapsY) ∧
  (∀ (i : Instr) (s t : State) (wraps : Bool), i ≠ .writeByte 0x0A → exec i s = .next t →
    exec i { s with newlineWrapsY := wraps } = .next { t with newlineWrapsY := wraps })

/-- Errors do not stop the block (R112): a command does the same whatever ILLEGAL and NOTREADY hold; they stay set. -/
def Obligations.ErrorBitsDoNotChangeCommands : Prop :=
  ∀ (i : Instr) (s t : State) (v : Byte), v &&& 0xFC = 0 → exec i s = .next t →
    exec i { s with status := s.status ||| v } = .next { t with status := t.status ||| v }

/-- A command that emits nothing completes with no wait on the signalling agent, and changes no STATUS bit, no line,
neither CONTRAST nor the trace (R32, R63). -/
def Obligations.SilentCommandsNeedNoAgent : Prop :=
  ∀ (i : Instr) (s : State) (n : Option Nat), isSerializer i = false → ∃ t : State,
    exec i s = .next t ∧ exec i { s with agent := n } = .next { t with agent := n } ∧
    t.status = s.status ∧ t.lines = s.lines ∧ t.trace = s.trace ∧ t.contrast = s.contrast ∧
    t.agent = s.agent ∧ t.stalled = s.stalled ∧ t.pending = s.pending ∧ t.readLog = s.readLog

/-- The canonical form of the framebuffer's memory is one: memories that list the same bytes are equal (log 3). -/
def Obligations.CanonicalMemoryIsUnique : Prop :=
  ∀ m n : Memory, Memory.wf m = true → Memory.wf n = true →
    (∀ a : Nat, Memory.lookup a m = Memory.lookup a n) → m = n

/-! ## The assembler -/

/-- The assembler refuses a command with an operand out of range; the host writes it makes of any other command, served
from a state that does not wait, execute exactly that command, and the ARG bytes not named keep their values (R57, R62,
R64). -/
def Obligations.AssembledCommandIsExecuted : Prop :=
  ∀ i : Instr,
    (i.wellFormed = false → assemble (.command i) = none) ∧
    (i.wellFormed = true → ∃ evs : List HostEvent, assemble (.command i) = some evs ∧
      evs.length = i.argBytes.length + 1 ∧
      (∀ k : Nat, k < i.argBytes.length →
        evs[k]? = some (.write (BitVec.ofNat 10 (0x201 + k)) 1 (i.argBytes.getD k 0x00))) ∧
      evs[i.argBytes.length]? = some (.write 0x200 1 i.opcode) ∧
      ∀ (s : State) (rest : List HostEvent), s.stalled = false → s.pending = evs ++ rest →
        ∃ a : Args, (∀ k : Nat, k < 7 → a.get k = i.argBytes.getD k (s.args.get k)) ∧
          stepMany evs.length s = exec i { s with args := a, pending := rest })

/-- LOAD_BITMAP of 504 bytes sets every cell to its byte and a source of another length is refused (R65); 504 aperture
reads in address order then return exactly the bytes, as the spec infers in its rule R72(e). -/
def Obligations.LoadBitmapRoundTrip : Prop :=
  (∀ bytes : List Nat, bytes.length ≠ 504 → assemble (.loadBitmap bytes) = none) ∧
  ∀ bytes : List Nat, bytes.length = 504 → (∀ b ∈ bytes, b < 256) →
    ∃ evs : List HostEvent, assemble (.loadBitmap bytes) = some evs ∧
      (∀ k : Nat, k < 504 → evs[k]? = some (.write (BitVec.ofNat 10 k) 1 (BitVec.ofNat 8 (bytes.getD k 0)))) ∧
      ∀ (s : State) (rest : List HostEvent), s.stalled = false →
        s.pending = evs ++ (List.range 504).map (fun k => .read (BitVec.ofNat 10 k) 1) ++ rest →
        ∃ t : State, stepMany 1008 s = .next t ∧
          t = { s with
            fb := t.fb
            pending := rest
            readLog := s.readLog ++ bytes.map (BitVec.ofNat 8) } ∧
          ∀ p c : Nat, p < 6 → c < 84 → (t.fb.cell p c).toNat = bytes.getD (p * 84 + c) 0

/-- R66. WRITE_STRING expands to SET_CURSOR and then a WRITE_BYTE for each byte, in order: serving what the assembler makes
of it does what executing those commands in that order does, but for the operand registers. -/
def Obligations.WriteStringRunsItsCommands : Prop :=
  ∀ (x y : Nat) (str : List Nat), x < 256 → y < 256 → (∀ b ∈ str, b < 256) →
    ∃ evs : List HostEvent, assemble (.writeString x y str) = some evs ∧
      ∀ (s : State) (rest : List HostEvent), s.stalled = false → s.pending = evs ++ rest →
        ∃ t u : State, stepMany evs.length s = .next t ∧
          execAll (.setCursor x y :: str.map Instr.writeByte) { s with pending := rest } = .next u ∧
          t = { u with args := t.args }

/-- R67. READ_PIXEL reads the byte whose bit `y mod 8` is the pixel, and is refused off the display; CLEAR_STATUS clears
ILLEGAL and NOTREADY and nothing else. -/
def Obligations.ReadPixelAndClearStatus : Prop :=
  (∀ x y : Nat, 84 ≤ x ∨ 48 ≤ y → assemble (.readPixel x y) = none) ∧
  (∀ (x y : Nat) (s : State) (rest : List HostEvent), x < 84 → y < 48 → s.stalled = false →
    ∃ a : HostAddr, assemble (.readPixel x y) = some [.read a 1] ∧ a.toNat = y / 8 * 84 + x ∧
      (s.pending = .read a 1 :: rest → ∃ b : Byte,
        step s = .next { s with pending := rest, readLog := s.readLog ++ [b] } ∧
        b = s.fb.cell (y / 8) x ∧
        readPixelResult y b = s.fb.pixel x y)) ∧
  (∀ (s : State) (rest : List HostEvent), s.stalled = false →
    assemble .clearStatus = some [.write 0x208 1 0x03] ∧
    (s.pending = .write 0x208 1 0x03 :: rest → ∃ t : State, step s = .next t ∧
      t = { s with pending := rest, status := t.status } ∧ t.illegal = false ∧ t.notReady = false ∧
      ∀ j : Nat, 2 ≤ j → t.status.getLsbD j = s.status.getLsbD j))
end

