-- ==== Sys2Proof/Laws/Encoding.lean ====
section
/-! SUPPORT. Bytes of command words: the small lemmas about packBytes, wordByte and packWord. -/

namespace Sys2Proof

theorem isByte_eq_true {n : Nat} : isByte n = true ↔ n < 256 := by simp [isByte]

section

variable (b0 b1 b2 b3 b4 b5 b6 b7 : Byte)

@[simp] theorem wordByte_packBytes_zero : wordByte (packBytes b0 b1 b2 b3 b4 b5 b6 b7) 0 = b0 := by
  unfold wordByte packBytes
  apply BitVec.eq_of_getLsbD_eq
  intro i hi
  simp only [BitVec.getLsbD_extractLsb', BitVec.getLsbD_append, hi]
  interval_cases i <;> simp

@[simp] theorem wordByte_packBytes_one : wordByte (packBytes b0 b1 b2 b3 b4 b5 b6 b7) 1 = b1 := by
  unfold wordByte packBytes
  apply BitVec.eq_of_getLsbD_eq
  intro i hi
  simp only [BitVec.getLsbD_extractLsb', BitVec.getLsbD_append, hi]
  interval_cases i <;> simp

@[simp] theorem wordByte_packBytes_two : wordByte (packBytes b0 b1 b2 b3 b4 b5 b6 b7) 2 = b2 := by
  unfold wordByte packBytes
  apply BitVec.eq_of_getLsbD_eq
  intro i hi
  simp only [BitVec.getLsbD_extractLsb', BitVec.getLsbD_append, hi]
  interval_cases i <;> simp

@[simp] theorem wordByte_packBytes_three : wordByte (packBytes b0 b1 b2 b3 b4 b5 b6 b7) 3 = b3 := by
  unfold wordByte packBytes
  apply BitVec.eq_of_getLsbD_eq
  intro i hi
  simp only [BitVec.getLsbD_extractLsb', BitVec.getLsbD_append, hi]
  interval_cases i <;> simp

@[simp] theorem wordByte_packBytes_four : wordByte (packBytes b0 b1 b2 b3 b4 b5 b6 b7) 4 = b4 := by
  unfold wordByte packBytes
  apply BitVec.eq_of_getLsbD_eq
  intro i hi
  simp only [BitVec.getLsbD_extractLsb', BitVec.getLsbD_append, hi]
  interval_cases i <;> simp

@[simp] theorem wordByte_packBytes_five : wordByte (packBytes b0 b1 b2 b3 b4 b5 b6 b7) 5 = b5 := by
  unfold wordByte packBytes
  apply BitVec.eq_of_getLsbD_eq
  intro i hi
  simp only [BitVec.getLsbD_extractLsb', BitVec.getLsbD_append, hi]
  interval_cases i <;> simp

@[simp] theorem wordByte_packBytes_six : wordByte (packBytes b0 b1 b2 b3 b4 b5 b6 b7) 6 = b6 := by
  unfold wordByte packBytes
  apply BitVec.eq_of_getLsbD_eq
  intro i hi
  simp only [BitVec.getLsbD_extractLsb', BitVec.getLsbD_append, hi]
  interval_cases i <;> simp

@[simp] theorem wordByte_packBytes_seven : wordByte (packBytes b0 b1 b2 b3 b4 b5 b6 b7) 7 = b7 := by
  unfold wordByte packBytes
  apply BitVec.eq_of_getLsbD_eq
  intro i hi
  simp only [BitVec.getLsbD_extractLsb', BitVec.getLsbD_append, hi]
  interval_cases i <;> simp

end

/-- A word is the word of its bytes. -/
theorem packBytes_wordByte (w : BitVec 64) :
    packBytes (wordByte w 0) (wordByte w 1) (wordByte w 2) (wordByte w 3) (wordByte w 4) (wordByte w 5)
      (wordByte w 6) (wordByte w 7) = w := by
  unfold packBytes wordByte
  apply BitVec.eq_of_getLsbD_eq
  intro i hi
  simp only [BitVec.getLsbD_extractLsb', BitVec.getLsbD_append]
  interval_cases i <;> simp

/-- Two words with equal bytes are equal. -/
theorem word_ext {w v : BitVec 64} (h : ∀ k, k < 8 → wordByte w k = wordByte v k) : w = v := by
  rw [← packBytes_wordByte w, ← packBytes_wordByte v, h 0 (by omega), h 1 (by omega), h 2 (by omega),
    h 3 (by omega), h 4 (by omega), h 5 (by omega), h 6 (by omega), h 7 (by omega)]

/-- A word has one list of bytes. -/
theorem packBytes_inj {a0 a1 a2 a3 a4 a5 a6 a7 b0 b1 b2 b3 b4 b5 b6 b7 : Byte}
    (h : packBytes a0 a1 a2 a3 a4 a5 a6 a7 = packBytes b0 b1 b2 b3 b4 b5 b6 b7) :
    a0 = b0 ∧ a1 = b1 ∧ a2 = b2 ∧ a3 = b3 ∧ a4 = b4 ∧ a5 = b5 ∧ a6 = b6 ∧ a7 = b7 := by
  have hk : ∀ k, wordByte (packBytes a0 a1 a2 a3 a4 a5 a6 a7) k
      = wordByte (packBytes b0 b1 b2 b3 b4 b5 b6 b7) k := fun k => by rw [h]
  exact ⟨by simpa using hk 0, by simpa using hk 1, by simpa using hk 2, by simpa using hk 3,
    by simpa using hk 4, by simpa using hk 5, by simpa using hk 6, by simpa using hk 7⟩

@[simp] theorem wordByte_and (w v : BitVec 64) (k : Nat) :
    wordByte (w &&& v) k = wordByte w k &&& wordByte v k := by
  apply BitVec.eq_of_getLsbD_eq
  intro i hi
  simp [wordByte, hi]

/-- The bytes of an AND of words. -/
theorem packBytes_and (a0 a1 a2 a3 a4 a5 a6 a7 b0 b1 b2 b3 b4 b5 b6 b7 : Byte) :
    packBytes a0 a1 a2 a3 a4 a5 a6 a7 &&& packBytes b0 b1 b2 b3 b4 b5 b6 b7
      = packBytes (a0 &&& b0) (a1 &&& b1) (a2 &&& b2) (a3 &&& b3) (a4 &&& b4) (a5 &&& b5) (a6 &&& b6)
        (a7 &&& b7) := by
  apply word_ext
  intro k hk
  interval_cases k <;> simp

@[simp] theorem byte_and_ff (v : Byte) : v &&& 255#8 = v := by
  revert v
  decide

@[simp] theorem operandBit_and_one (b : Bool) : operandBit b &&& 1#8 = operandBit b := by
  cases b <;> rfl

@[simp] theorem operandByte_toNat {n : Nat} (h : n < 256) : (operandByte n).toNat = n := by
  simp [operandByte, Nat.mod_eq_of_lt h]

@[simp] theorem operandByte_toNat_byte (b : Byte) : operandByte b.toNat = b := by
  simp [operandByte]

@[simp] theorem operandBit_getLsbD_zero (b : Bool) : (operandBit b).getLsbD 0 = b := by
  cases b <;> rfl

/-- A byte cut down to bit 0 is the operand byte of that bit. -/
theorem and_one_eq_operandBit (v : Byte) : v &&& 1#8 = operandBit (v.getLsbD 0) := by
  revert v
  decide

/-- The word that a command write issues holds the written byte in byte 0. -/
@[simp] theorem wordByte_commandWord_zero (a : Machine.Args) (v : Byte) :
    wordByte (Machine.commandWord a v) 0 = v := by
  simp [Machine.commandWord]

/-- A table word of at least 64 bits is decoded as the word it is. -/
theorem packBytes_tableByte (nbits w : Nat) :
    packBytes (tableByte nbits w 0) (tableByte nbits w 1) (tableByte nbits w 2) (tableByte nbits w 3)
      (tableByte nbits w 4) (tableByte nbits w 5) (tableByte nbits w 6) (tableByte nbits w 7)
      = BitVec.ofNat 64 (w % 2 ^ nbits) := by
  apply word_ext
  intro k hk
  have key : ∀ k, k < 8 →
      wordByte (BitVec.ofNat 64 (w % 2 ^ nbits)) k = tableByte nbits w k := by
    intro k hk
    apply BitVec.eq_of_toNat_eq
    simp only [wordByte, tableByte, BitVec.extractLsb'_toNat, BitVec.toNat_ofNat, Nat.shiftRight_eq_div_pow]
    have : (256 : Nat) ^ k = 2 ^ (8 * k) := by rw [pow_mul]; norm_num
    rw [this]
    generalize w % 2 ^ nbits = m
    interval_cases k <;> omega
  rw [key k hk]
  interval_cases k <;> simp

end Sys2Proof
end

