-- ==== Sys2Proof/Laws/Memory.lean ====
section
/-! SUPPORT. Laws of the memory and of the framebuffer's cells: what a write leaves to be read, and that every memory
operation keeps the canonical form Memory.wf. -/

namespace Sys2Proof.Machine

/-! ## Memory -/

@[simp] theorem Memory.lookup_nil (a : Nat) : Memory.lookup a [] = none := rfl

/-- A write is read back at its address and leaves every other address alone. -/
theorem Memory.lookup_write (a b : Nat) (v : Byte) (m : Memory) :
    Memory.lookup a (Memory.write b v m) = if a = b then some v else Memory.lookup a m := by
  induction m with
  | nil => simp [Memory.write, Memory.lookup]
  | cons e m ih =>
    obtain ⟨c, u⟩ := e
    simp only [Memory.write]
    split_ifs with h1 h2 <;> simp only [Memory.lookup, ih] <;> split_ifs <;> simp_all

theorem Memory.rising_mono {lo lo' hi : Nat} {m : Memory} (h : Memory.rising lo hi m = true)
    (hle : lo' ≤ lo) : Memory.rising lo' hi m = true := by
  cases m with
  | nil => rfl
  | cons e m =>
    obtain ⟨a, v⟩ := e
    simp only [Memory.rising, Bool.and_eq_true, decide_eq_true_eq] at h ⊢
    exact ⟨⟨by omega, h.1.2⟩, h.2⟩

theorem Memory.rising_write {lo hi a : Nat} {v : Byte} {m : Memory}
    (h : Memory.rising lo hi m = true) (hlo : lo ≤ a) (hhi : a < hi) :
    Memory.rising lo hi (Memory.write a v m) = true := by
  induction m generalizing lo with
  | nil => simp [Memory.write, Memory.rising, hlo, hhi]
  | cons e m ih =>
    obtain ⟨b, u⟩ := e
    simp only [Memory.rising, Bool.and_eq_true, decide_eq_true_eq] at h
    simp only [Memory.write]
    split_ifs with h1 h2
    · simp [Memory.rising, hlo, hhi, h.1.2, h.2]
      omega
    · subst h2
      simp [Memory.rising, hlo, hhi, h.2]
    · simp only [Memory.rising, Bool.and_eq_true, decide_eq_true_eq]
      exact ⟨h.1, ih h.2 (by omega)⟩

/-- A write inside the framebuffer keeps the canonical form. -/
theorem Memory.wf_write {a : Nat} {v : Byte} {m : Memory} (h : Memory.wf m = true)
    (ha : a < Config.cells) : Memory.wf (Memory.write a v m) = true :=
  Memory.rising_write h (Nat.zero_le a) ha

/-- An address below every listed one is not listed. -/
theorem Memory.lookup_eq_none_of_lt {lo hi a : Nat} {m : Memory} (h : Memory.rising lo hi m = true)
    (ha : a < lo) : Memory.lookup a m = none := by
  induction m generalizing lo with
  | nil => rfl
  | cons e m ih =>
    obtain ⟨b, u⟩ := e
    simp only [Memory.rising, Bool.and_eq_true, decide_eq_true_eq] at h
    simp only [Memory.lookup]
    rw [if_neg (by omega)]
    exact ih h.2 (by omega)

/-! ## Cells -/

theorem Framebuffer.read_write (fb : Framebuffer) (i j : Nat) (v : Byte) :
    (fb.write j v).read i = if i = j then v else fb.read i := by
  unfold Framebuffer.read Framebuffer.write
  simp only [Memory.lookup_write]
  split_ifs <;> rfl

@[simp] theorem Framebuffer.write_draw (fb : Framebuffer) (i : Nat) (v : Byte) :
    (fb.write i v).draw = fb.draw := rfl

@[simp] theorem Framebuffer.setCell_draw (fb : Framebuffer) (p c : Nat) (v : Byte) :
    (fb.setCell p c v).draw = fb.draw := rfl

@[simp] theorem Framebuffer.clear_draw (fb : Framebuffer) : fb.clear.draw = fb.draw := by
  simp only [Framebuffer.clear]

theorem cellIndex_eq (p c : Nat) : cellIndex p c = p * 84 + c := rfl

theorem cellIndex_lt {p c : Nat} (hp : p < 6) (hc : c < 84) : cellIndex p c < Config.cells := by
  simp only [cellIndex_eq, Config.cells]
  omega

/-- Different cells have different indexes. -/
theorem cellIndex_inj {p q c d : Nat} (hc : c < 84) (hd : d < 84) :
    cellIndex p c = cellIndex q d ↔ p = q ∧ c = d := by
  simp only [cellIndex_eq]
  omega

/-- An aperture address is the index of the cell at its quotient and remainder (R41). -/
theorem cellIndex_div_mod (a : Nat) : cellIndex (a / 84) (a % 84) = a := by
  simp only [cellIndex_eq]
  omega

/-- Storing a cell changes that cell and no other. -/
theorem Framebuffer.cell_setCell (fb : Framebuffer) {p q c d : Nat} (v : Byte) (hc : c < 84)
    (hd : d < 84) :
    (fb.setCell q d v).cell p c = if p = q ∧ c = d then v else fb.cell p c := by
  unfold Framebuffer.cell Framebuffer.setCell
  simp only [Framebuffer.read_write, cellIndex_inj hc hd]

theorem Framebuffer.wf_setCell {fb : Framebuffer} {p c : Nat} {v : Byte}
    (h : Memory.wf fb.mem = true) (hp : p < 6) (hc : c < 84) :
    Memory.wf (fb.setCell p c v).mem = true :=
  Memory.wf_write h (cellIndex_lt hp hc)

/-! ## Clear -/

theorem Memory.lookup_map_range' (v : Byte) (lo n a : Nat) :
    Memory.lookup a ((List.range' lo n).map fun i => (i, v))
      = if lo ≤ a ∧ a < lo + n then some v else none := by
  induction n generalizing lo with
  | zero => simp
  | succ n ih =>
    simp only [List.range'_succ, List.map_cons, Memory.lookup, ih]
    split_ifs <;> first | rfl | omega

theorem Memory.rising_map_range' (v : Byte) (lo n hi : Nat) (h : lo + n ≤ hi) :
    Memory.rising lo hi ((List.range' lo n).map fun i => (i, v)) = true := by
  induction n generalizing lo with
  | zero => simp [Memory.rising]
  | succ n ih =>
    simp only [List.range'_succ, List.map_cons, Memory.rising, Bool.and_eq_true, decide_eq_true_eq]
    exact ⟨⟨Nat.le_refl lo, by omega⟩, ih (lo + 1) (by omega)⟩

/-- After a clear every cell reads 0x00. -/
theorem Framebuffer.read_clear (fb : Framebuffer) {i : Nat} (h : i < Config.cells) :
    fb.clear.read i = 0x00 := by
  have hl : Memory.lookup i fb.clear.mem = some 0x00 := by
    unfold Framebuffer.clear
    rw [List.range_eq_range', Memory.lookup_map_range', if_pos (by omega)]
  unfold Framebuffer.read
  rw [hl, Option.getD_some]

theorem Framebuffer.wf_clear (fb : Framebuffer) : Memory.wf fb.clear.mem = true := by
  unfold Framebuffer.clear Memory.wf
  rw [List.range_eq_range']
  exact Memory.rising_map_range' _ _ _ _ (by omega)

/-! ## Pixels -/

theorem onDisplay_iff {x y : Nat} : onDisplay x y = true ↔ x < 84 ∧ y < 48 := by
  simp only [onDisplay, Config.width, Config.height, Bool.and_eq_true, decide_eq_true_eq]

/-- The bit that setBit leaves: the new one at its place, the old ones elsewhere. -/
theorem getLsbD_setBit (v : Byte) (on : Bool) {b j : Nat} (hb : b < 8) (hj : j < 8) :
    (setBit v b on).getLsbD j = if j = b then on else v.getLsbD j := by
  cases on <;> simp only [setBit, Bool.false_eq_true, if_true, if_false] <;>
    interval_cases b <;> interval_cases j <;> simp

@[simp] theorem setPixel_draw (x y : Nat) (on : Bool) (fb : Framebuffer) :
    (setPixel x y on fb).draw = fb.draw := by
  unfold setPixel
  split <;> rfl

/-- All that the pixel primitive does to a pixel of the display: a pixel on the display takes the value, every other
pixel keeps its own, and a point off the display changes none (R70). -/
theorem pixel_setPixel (fb : Framebuffer) {x y px py : Nat} (on : Bool) (hpx : px < 84)
    (hpy : py < 48) :
    (setPixel x y on fb).pixel px py = if px = x ∧ py = y then on else fb.pixel px py := by
  unfold setPixel
  split
  · rename_i h
    obtain ⟨hx, hy⟩ := onDisplay_iff.1 h
    unfold Framebuffer.pixel
    rw [Framebuffer.cell_setCell _ _ hpx hx]
    by_cases hc : py / 8 = y / 8 ∧ px = x
    · rw [if_pos hc, getLsbD_setBit _ _ (Nat.mod_lt _ (by omega)) (Nat.mod_lt _ (by omega))]
      obtain ⟨h1, rfl⟩ := hc
      by_cases h2 : py % 8 = y % 8
      · rw [if_pos h2, if_pos ⟨rfl, by omega⟩]
      · rw [if_neg h2, if_neg (by rintro ⟨-, rfl⟩; exact h2 rfl), h1]
    · rw [if_neg hc, if_neg (by rintro ⟨rfl, rfl⟩; exact hc ⟨rfl, rfl⟩)]
  · rename_i h
    rw [if_neg]
    rintro ⟨rfl, rfl⟩
    exact h (onDisplay_iff.2 ⟨hpx, hpy⟩)

/-- The pixel primitive leaves every cell but the pixel's own alone (R70). -/
theorem cell_setPixel_of_ne (fb : Framebuffer) {x y p c : Nat} (on : Bool) (hc : c < 84)
    (h : ¬(p = y / 8 ∧ c = x)) : (setPixel x y on fb).cell p c = fb.cell p c := by
  unfold setPixel
  split
  · rename_i hd
    rw [Framebuffer.cell_setCell _ _ hc (onDisplay_iff.1 hd).1, if_neg h]
  · rfl

theorem wf_setPixel {fb : Framebuffer} (x y : Nat) (on : Bool) (h : Memory.wf fb.mem = true) :
    Memory.wf (setPixel x y on fb).mem = true := by
  unfold setPixel
  split
  · rename_i hd
    obtain ⟨hx, hy⟩ := onDisplay_iff.1 hd
    exact Framebuffer.wf_setCell h (by omega) hx
  · exact h

end Sys2Proof.Machine
end

