-- ==== Sys2Proof/Laws/Glyph.lean ====
section
/-! SUPPORT. Laws of the glyph blit: the cells it replaces and the cells it leaves. -/

namespace Sys2Proof.Machine

@[simp] theorem blitColumns_draw (p x : Nat) (gs : List Byte) (fb : Framebuffer) :
    (blitColumns p x gs fb).draw = fb.draw := by
  induction gs generalizing x fb with
  | nil => rfl
  | cons g gs ih => rw [blitColumns, ih, Framebuffer.setCell_draw]

/-- All that a blit does to a cell: the cells of page `p` from column `x` on take the bytes in order, every other cell
keeps its own. -/
theorem cell_blitColumns (p x : Nat) (gs : List Byte) (fb : Framebuffer) {q c : Nat}
    (hx : x + gs.length ≤ 84) (hc : c < 84) :
    (blitColumns p x gs fb).cell q c
      = if q = p ∧ x ≤ c ∧ c < x + gs.length then gs.getD (c - x) 0 else fb.cell q c := by
  induction gs generalizing x fb with
  | nil =>
    rw [blitColumns, if_neg]
    simp only [List.length_nil]
    omega
  | cons g gs ih =>
    simp only [List.length_cons] at hx
    rw [blitColumns, ih (x + 1) _ (by omega), Framebuffer.cell_setCell _ _ hc (by omega)]
    simp only [List.length_cons]
    by_cases h1 : c = x
    · subst h1
      rw [if_neg (by omega)]
      by_cases h2 : q = p
      · rw [if_pos ⟨h2, rfl⟩, if_pos ⟨h2, by omega⟩]
        simp
      · rw [if_neg (by tauto), if_neg (by tauto)]
    · by_cases h2 : q = p ∧ x + 1 ≤ c ∧ c < x + 1 + gs.length
      · rw [if_pos h2, if_pos ⟨h2.1, by omega⟩]
        have : c - x = (c - (x + 1)) + 1 := by omega
        rw [this]
        simp
      · rw [if_neg h2, if_neg (by tauto), if_neg]
        rintro ⟨h3, h4, h5⟩
        exact h2 ⟨h3, by omega, by omega⟩

theorem wf_blitColumns {p x : Nat} {gs : List Byte} {fb : Framebuffer}
    (h : Memory.wf fb.mem = true) (hp : p < 6) (hx : x + gs.length ≤ 84) :
    Memory.wf (blitColumns p x gs fb).mem = true := by
  induction gs generalizing x fb with
  | nil => exact h
  | cons g gs ih =>
    simp only [List.length_cons] at hx
    exact ih (Framebuffer.wf_setCell h hp (by omega)) (by omega)

theorem glyphFits_iff {x y : Nat} : glyphFits x y = true ↔ y < 48 ∧ x + 5 < 84 := by
  simp only [glyphFits, Bool.and_eq_true, decide_eq_true_eq, Config.width, Config.height, Config.glyphW]

@[simp] theorem glyph_columns_length (g : Config.Glyph) (color : Bool) :
    (g.columns.map (glyphCell color)).length = 5 := rfl

@[simp] theorem drawChar_draw (color : Bool) (x y code : Nat) (fb : Framebuffer) :
    (drawChar color x y code fb).draw = fb.draw := by
  unfold drawChar
  split
  · split
    · rfl
    · exact blitColumns_draw _ _ _ _
  · rfl

theorem wf_drawChar {color : Bool} {x y code : Nat} {fb : Framebuffer}
    (h : Memory.wf fb.mem = true) : Memory.wf (drawChar color x y code fb).mem = true := by
  unfold drawChar
  split
  · rename_i hf
    obtain ⟨hy, hx⟩ := glyphFits_iff.1 hf
    split
    · exact h
    · exact wf_blitColumns h (by omega) (by rw [glyph_columns_length]; omega)
  · exact h

theorem font_eq_some {code : Nat} (h : 0x20 ≤ code ∧ code ≤ 0xB3) :
    font code = some (fontGlyph code) := if_pos h

theorem font_eq_none {code : Nat} (h : ¬(0x20 ≤ code ∧ code ≤ 0xB3)) : font code = none := if_neg h

end Sys2Proof.Machine
end

