-- ==== Sys2Proof/Laws/Line.lean ====
section
/-! SUPPORT. Laws of the line engine: the points the loop plots, and what plotting does to the framebuffer. -/

namespace Sys2Proof.Machine

theorem lineIter_succ (dx dy ystep : Int) (k : Nat) (p : Int × Int) :
    lineIter dx dy ystep (k + 1) p
      = lineNext dx dy ystep (lineIter dx dy ystep k p).1 (lineIter dx dy ystep k p).2 := by
  induction k generalizing p with
  | zero => rfl
  | succ k ih => rw [lineIter, ih, lineIter]

@[simp] theorem lineLoop_length (steep : Bool) (dx dy ystep : Int) (n x : Nat) (y err : Int) :
    (lineLoop steep dx dy ystep n x y err).length = n := by
  induction n generalizing x y err with
  | zero => rfl
  | succ n ih => simp [lineLoop, ih]

/-- The point that iteration `k` plots: major coordinate `x + k`, minor coordinate `y` after `k` iterations. -/
theorem lineLoop_getElem? (steep : Bool) (dx dy ystep : Int) {n k : Nat} (x : Nat) (y err : Int)
    (hk : k < n) :
    (lineLoop steep dx dy ystep n x y err)[k]?
      = some (if steep then ((lineIter dx dy ystep k (y, err)).1.toNat, x + k)
        else (x + k, (lineIter dx dy ystep k (y, err)).1.toNat)) := by
  induction n generalizing k x y err with
  | zero => omega
  | succ n ih =>
    cases k with
    | zero => simp [lineLoop, lineIter]
    | succ k =>
      simp only [lineLoop, List.getElem?_cons_succ, ih _ _ _ (Nat.lt_of_succ_lt_succ hk), lineIter,
        Nat.add_assoc, Nat.add_comm 1 k]

/-- A point the loop plots is the point of one of its iterations. -/
theorem mem_lineLoop (steep : Bool) (dx dy ystep : Int) (n x : Nat) (y err : Int) (p : Nat × Nat) :
    p ∈ lineLoop steep dx dy ystep n x y err ↔
      ∃ k, k < n ∧ p = (if steep then ((lineIter dx dy ystep k (y, err)).1.toNat, x + k)
        else (x + k, (lineIter dx dy ystep k (y, err)).1.toNat)) := by
  rw [List.mem_iff_getElem?]
  constructor
  · rintro ⟨k, hk⟩
    have hlt : k < n := by
      have := (List.getElem?_eq_some_iff.1 hk).1
      rwa [lineLoop_length] at this
    rw [lineLoop_getElem? _ _ _ _ _ _ _ hlt] at hk
    exact ⟨k, hlt, (Option.some.inj hk).symm⟩
  · rintro ⟨k, hk, rfl⟩
    exact ⟨k, lineLoop_getElem? _ _ _ _ _ _ _ hk⟩

/-- All that the two swaps can give: the segment the loop runs over, by steepness and by the order of the ends (R74). -/
theorem Segment.major_cases (x0 y0 x1 y1 : Nat) :
    (absdiff y1 y0 > absdiff x1 x0 ∧ (Segment.mk x0 y0 x1 y1).steep = true ∧
      ((y0 > y1 ∧ (Segment.mk x0 y0 x1 y1).major = ⟨y1, x1, y0, x0⟩) ∨
        (y0 ≤ y1 ∧ (Segment.mk x0 y0 x1 y1).major = ⟨y0, x0, y1, x1⟩))) ∨
    (absdiff y1 y0 ≤ absdiff x1 x0 ∧ (Segment.mk x0 y0 x1 y1).steep = false ∧
      ((x0 > x1 ∧ (Segment.mk x0 y0 x1 y1).major = ⟨x1, y1, x0, y0⟩) ∨
        (x0 ≤ x1 ∧ (Segment.mk x0 y0 x1 y1).major = ⟨x0, y0, x1, y1⟩))) := by
  by_cases h : absdiff y1 y0 > absdiff x1 x0
  · have hs : (Segment.mk x0 y0 x1 y1).steep = true := decide_eq_true h
    refine .inl ⟨h, hs, ?_⟩
    simp only [Segment.major, Segment.swapRoles, hs, if_true, Segment.swapEnds]
    by_cases h2 : y0 > y1
    · exact .inl ⟨h2, if_pos h2⟩
    · exact .inr ⟨by omega, if_neg h2⟩
  · have hs : (Segment.mk x0 y0 x1 y1).steep = false := decide_eq_false h
    refine .inr ⟨by omega, hs, ?_⟩
    simp only [Segment.major, Segment.swapRoles, hs, Bool.false_eq_true, if_false, Segment.swapEnds]
    by_cases h2 : x0 > x1
    · exact .inl ⟨h2, if_pos h2⟩
    · exact .inr ⟨by omega, if_neg h2⟩

@[simp] theorem plotAll_nil (c : Bool) (fb : Framebuffer) : plotAll c [] fb = fb := rfl

@[simp] theorem plotAll_cons (c : Bool) (p : Nat × Nat) (ps : List (Nat × Nat)) (fb : Framebuffer) :
    plotAll c (p :: ps) fb = plotAll c ps (setPixel p.1 p.2 c fb) := rfl

@[simp] theorem plotAll_draw (c : Bool) (ps : List (Nat × Nat)) (fb : Framebuffer) :
    (plotAll c ps fb).draw = fb.draw := by
  induction ps generalizing fb with
  | nil => rfl
  | cons p ps ih => rw [plotAll_cons, ih, setPixel_draw]

/-- All that plotting does to a pixel of the display: a plotted pixel takes the colour, every other keeps its own. -/
theorem pixel_plotAll (c : Bool) (ps : List (Nat × Nat)) (fb : Framebuffer) {px py : Nat}
    (hpx : px < 84) (hpy : py < 48) :
    (plotAll c ps fb).pixel px py = if (px, py) ∈ ps then c else fb.pixel px py := by
  induction ps generalizing fb with
  | nil => simp
  | cons p ps ih =>
    rw [plotAll_cons, ih, pixel_setPixel _ _ hpx hpy]
    obtain ⟨x, y⟩ := p
    simp only [List.mem_cons, Prod.mk.injEq]
    split_ifs <;> simp_all

theorem wf_plotAll {c : Bool} (ps : List (Nat × Nat)) {fb : Framebuffer}
    (h : Memory.wf fb.mem = true) : Memory.wf (plotAll c ps fb).mem = true := by
  induction ps generalizing fb with
  | nil => exact h
  | cons p ps ih => exact ih (wf_setPixel _ _ _ h)

@[simp] theorem line_draw (x0 y0 x1 y1 : Nat) (c : Bool) (fb : Framebuffer) :
    (line x0 y0 x1 y1 c fb).draw = fb.draw := plotAll_draw _ _ _

theorem pixel_line (x0 y0 x1 y1 : Nat) (c : Bool) (fb : Framebuffer) {px py : Nat} (hpx : px < 84)
    (hpy : py < 48) :
    (line x0 y0 x1 y1 c fb).pixel px py
      = if (px, py) ∈ linePoints x0 y0 x1 y1 then c else fb.pixel px py :=
  pixel_plotAll _ _ _ hpx hpy

theorem wf_line {x0 y0 x1 y1 : Nat} {c : Bool} {fb : Framebuffer} (h : Memory.wf fb.mem = true) :
    Memory.wf (line x0 y0 x1 y1 c fb).mem = true :=
  wf_plotAll _ h

end Sys2Proof.Machine
end

