-- ==== Sys2Proof/Laws/State.lean ====
section
/-! SUPPORT. One lemma per field for each update of the state that the shared operations make. -/

namespace Sys2Proof.Machine

section

variable (s : State) (e : CommandError) (es : List Event) (c : Nat) (k : Nat) (v : Byte) (bs : List Byte)

/-! ## raise: STATUS alone -/

@[simp] theorem raise_fb : (raise e s).fb = s.fb := rfl
@[simp] theorem raise_args : (raise e s).args = s.args := rfl
@[simp] theorem raise_status : (raise e s).status = s.status ||| e.mask := rfl
@[simp] theorem raise_result : (raise e s).result = s.result := rfl
@[simp] theorem raise_cursorX : (raise e s).cursorX = s.cursorX := rfl
@[simp] theorem raise_cursorY : (raise e s).cursorY = s.cursorY := rfl
@[simp] theorem raise_textSize : (raise e s).textSize = s.textSize := rfl
@[simp] theorem raise_textColor : (raise e s).textColor = s.textColor := rfl
@[simp] theorem raise_contrast : (raise e s).contrast = s.contrast := rfl
@[simp] theorem raise_lines : (raise e s).lines = s.lines := rfl
@[simp] theorem raise_trace : (raise e s).trace = s.trace := rfl
@[simp] theorem raise_agent : (raise e s).agent = s.agent := rfl
@[simp] theorem raise_stalled : (raise e s).stalled = s.stalled := rfl
@[simp] theorem raise_pending : (raise e s).pending = s.pending := rfl
@[simp] theorem raise_readLog : (raise e s).readLog = s.readLog := rfl
@[simp] theorem raise_newlineWrapsY : (raise e s).newlineWrapsY = s.newlineWrapsY := rfl

/-! ## accept: the trace, the lines and what the agent will still accept -/

@[simp] theorem accept_fb : (s.accept es).fb = s.fb := rfl
@[simp] theorem accept_args : (s.accept es).args = s.args := rfl
@[simp] theorem accept_status : (s.accept es).status = s.status := rfl
@[simp] theorem accept_result : (s.accept es).result = s.result := rfl
@[simp] theorem accept_cursorX : (s.accept es).cursorX = s.cursorX := rfl
@[simp] theorem accept_cursorY : (s.accept es).cursorY = s.cursorY := rfl
@[simp] theorem accept_textSize : (s.accept es).textSize = s.textSize := rfl
@[simp] theorem accept_textColor : (s.accept es).textColor = s.textColor := rfl
@[simp] theorem accept_contrast : (s.accept es).contrast = s.contrast := rfl
@[simp] theorem accept_lines : (s.accept es).lines = s.lines.applyAll es := rfl
@[simp] theorem accept_trace : (s.accept es).trace = s.trace ++ es := rfl
@[simp] theorem accept_agent : (s.accept es).agent = s.agent.map (fun k => k - es.length) := rfl
@[simp] theorem accept_stalled : (s.accept es).stalled = s.stalled := rfl
@[simp] theorem accept_pending : (s.accept es).pending = s.pending := rfl
@[simp] theorem accept_readLog : (s.accept es).readLog = s.readLog := rfl
@[simp] theorem accept_newlineWrapsY : (s.accept es).newlineWrapsY = s.newlineWrapsY := rfl

/-! ## stall: what the agent still accepted, and the mark that the command waits -/

@[simp] theorem stall_fb : (s.stall es).fb = s.fb := rfl
@[simp] theorem stall_args : (s.stall es).args = s.args := rfl
@[simp] theorem stall_status : (s.stall es).status = s.status := rfl
@[simp] theorem stall_result : (s.stall es).result = s.result := rfl
@[simp] theorem stall_cursorX : (s.stall es).cursorX = s.cursorX := rfl
@[simp] theorem stall_cursorY : (s.stall es).cursorY = s.cursorY := rfl
@[simp] theorem stall_textSize : (s.stall es).textSize = s.textSize := rfl
@[simp] theorem stall_textColor : (s.stall es).textColor = s.textColor := rfl
@[simp] theorem stall_contrast : (s.stall es).contrast = s.contrast := rfl
@[simp] theorem stall_lines :
    (s.stall es).lines = s.lines.applyAll (es.take (s.agent.getD es.length)) := rfl
@[simp] theorem stall_trace : (s.stall es).trace = s.trace ++ es.take (s.agent.getD es.length) := rfl
@[simp] theorem stall_stalled : (s.stall es).stalled = true := rfl
@[simp] theorem stall_pending : (s.stall es).pending = s.pending := rfl
@[simp] theorem stall_readLog : (s.stall es).readLog = s.readLog := rfl
@[simp] theorem stall_newlineWrapsY : (s.stall es).newlineWrapsY = s.newlineWrapsY := rfl

/-! ## storeContrast: CONTRAST alone -/

@[simp] theorem storeContrast_fb : (storeContrast c s).fb = s.fb := rfl
@[simp] theorem storeContrast_args : (storeContrast c s).args = s.args := rfl
@[simp] theorem storeContrast_status : (storeContrast c s).status = s.status := rfl
@[simp] theorem storeContrast_result : (storeContrast c s).result = s.result := rfl
@[simp] theorem storeContrast_cursorX : (storeContrast c s).cursorX = s.cursorX := rfl
@[simp] theorem storeContrast_cursorY : (storeContrast c s).cursorY = s.cursorY := rfl
@[simp] theorem storeContrast_textSize : (storeContrast c s).textSize = s.textSize := rfl
@[simp] theorem storeContrast_textColor : (storeContrast c s).textColor = s.textColor := rfl
@[simp] theorem storeContrast_contrast :
    (storeContrast c s).contrast = BitVec.ofNat 8 (clamp c) := rfl
@[simp] theorem storeContrast_lines : (storeContrast c s).lines = s.lines := rfl
@[simp] theorem storeContrast_trace : (storeContrast c s).trace = s.trace := rfl
@[simp] theorem storeContrast_agent : (storeContrast c s).agent = s.agent := rfl
@[simp] theorem storeContrast_stalled : (storeContrast c s).stalled = s.stalled := rfl
@[simp] theorem storeContrast_pending : (storeContrast c s).pending = s.pending := rfl
@[simp] theorem storeContrast_readLog : (storeContrast c s).readLog = s.readLog := rfl
@[simp] theorem storeContrast_newlineWrapsY : (storeContrast c s).newlineWrapsY = s.newlineWrapsY := rfl

/-! ## becomeReady: STATUS alone -/

@[simp] theorem becomeReady_fb : (becomeReady s).fb = s.fb := rfl
@[simp] theorem becomeReady_args : (becomeReady s).args = s.args := rfl
@[simp] theorem becomeReady_status : (becomeReady s).status = s.status ||| readyMask := rfl
@[simp] theorem becomeReady_result : (becomeReady s).result = s.result := rfl
@[simp] theorem becomeReady_cursorX : (becomeReady s).cursorX = s.cursorX := rfl
@[simp] theorem becomeReady_cursorY : (becomeReady s).cursorY = s.cursorY := rfl
@[simp] theorem becomeReady_textSize : (becomeReady s).textSize = s.textSize := rfl
@[simp] theorem becomeReady_textColor : (becomeReady s).textColor = s.textColor := rfl
@[simp] theorem becomeReady_contrast : (becomeReady s).contrast = s.contrast := rfl
@[simp] theorem becomeReady_lines : (becomeReady s).lines = s.lines := rfl
@[simp] theorem becomeReady_trace : (becomeReady s).trace = s.trace := rfl
@[simp] theorem becomeReady_agent : (becomeReady s).agent = s.agent := rfl
@[simp] theorem becomeReady_stalled : (becomeReady s).stalled = s.stalled := rfl
@[simp] theorem becomeReady_pending : (becomeReady s).pending = s.pending := rfl
@[simp] theorem becomeReady_readLog : (becomeReady s).readLog = s.readLog := rfl
@[simp] theorem becomeReady_newlineWrapsY : (becomeReady s).newlineWrapsY = s.newlineWrapsY := rfl

/-! ## storeArg: the operand registers alone -/

@[simp] theorem storeArg_fb : (storeArg k v s).fb = s.fb := rfl
@[simp] theorem storeArg_args : (storeArg k v s).args = s.args.set k v := rfl
@[simp] theorem storeArg_status : (storeArg k v s).status = s.status := rfl
@[simp] theorem storeArg_result : (storeArg k v s).result = s.result := rfl
@[simp] theorem storeArg_cursorX : (storeArg k v s).cursorX = s.cursorX := rfl
@[simp] theorem storeArg_cursorY : (storeArg k v s).cursorY = s.cursorY := rfl
@[simp] theorem storeArg_textSize : (storeArg k v s).textSize = s.textSize := rfl
@[simp] theorem storeArg_textColor : (storeArg k v s).textColor = s.textColor := rfl
@[simp] theorem storeArg_contrast : (storeArg k v s).contrast = s.contrast := rfl
@[simp] theorem storeArg_lines : (storeArg k v s).lines = s.lines := rfl
@[simp] theorem storeArg_trace : (storeArg k v s).trace = s.trace := rfl
@[simp] theorem storeArg_agent : (storeArg k v s).agent = s.agent := rfl
@[simp] theorem storeArg_stalled : (storeArg k v s).stalled = s.stalled := rfl
@[simp] theorem storeArg_pending : (storeArg k v s).pending = s.pending := rfl
@[simp] theorem storeArg_readLog : (storeArg k v s).readLog = s.readLog := rfl
@[simp] theorem storeArg_newlineWrapsY : (storeArg k v s).newlineWrapsY = s.newlineWrapsY := rfl

/-! ## blockReset: what stays -/

@[simp] theorem blockReset_draw : (blockReset s).fb.draw = s.fb.draw + 1 := rfl
@[simp] theorem blockReset_mem : (blockReset s).fb.mem = [] := rfl
@[simp] theorem blockReset_status : (blockReset s).status = 0x00 := rfl
@[simp] theorem blockReset_lines : (blockReset s).lines = Lines.reset := rfl
@[simp] theorem blockReset_trace : (blockReset s).trace = [] := rfl
@[simp] theorem blockReset_agent : (blockReset s).agent = s.agent := rfl
@[simp] theorem blockReset_stalled : (blockReset s).stalled = false := rfl
@[simp] theorem blockReset_pending : (blockReset s).pending = s.pending := rfl
@[simp] theorem blockReset_readLog : (blockReset s).readLog = s.readLog := rfl
@[simp] theorem blockReset_newlineWrapsY : (blockReset s).newlineWrapsY = s.newlineWrapsY := rfl

/-! ## withCommandBytes: the operand registers, the next host event, and no wait -/

@[simp] theorem withCommandBytes_fb : (withCommandBytes s bs).fb = s.fb := rfl
@[simp] theorem withCommandBytes_args : (withCommandBytes s bs).args = argsOfBytes bs.tail := rfl
@[simp] theorem withCommandBytes_status : (withCommandBytes s bs).status = s.status := rfl
@[simp] theorem withCommandBytes_stalled : (withCommandBytes s bs).stalled = false := rfl
@[simp] theorem withCommandBytes_pending :
    (withCommandBytes s bs).pending = .write 0x200 1 (bs.headD 0x00) :: s.pending := rfl

/-! ## STATUS bits -/

@[simp] theorem raise_ready : (raise e s).ready = s.ready := by
  cases e <;> simp [State.ready, CommandError.mask]

@[simp] theorem accept_ready : (s.accept es).ready = s.ready := rfl

@[simp] theorem storeContrast_ready : (storeContrast c s).ready = s.ready := rfl

@[simp] theorem becomeReady_ready : (becomeReady s).ready = true := by
  simp [State.ready, readyMask]

end

/-! ## Operand registers -/

@[simp] theorem Args.get_set (a : Args) (k j : Nat) (v : Byte) (h : k < 7) :
    (a.set k v).get j = if j = k then v else a.get j := by
  interval_cases k <;> (rcases j with _ | _ | _ | _ | _ | _ | _ | j) <;> simp [Args.get, Args.set]

/-- Operand registers that hold the same bytes are equal. -/
theorem Args.ext_get {a b : Args} (h : ∀ k, k < 7 → a.get k = b.get k) : a = b := by
  have h0 := h 0 (by omega)
  have h1 := h 1 (by omega)
  have h2 := h 2 (by omega)
  have h3 := h 3 (by omega)
  have h4 := h 4 (by omega)
  have h5 := h 5 (by omega)
  have h6 := h 6 (by omega)
  cases a
  cases b
  simp only [Args.get] at h0 h1 h2 h3 h4 h5 h6
  simp [h0, h1, h2, h3, h4, h5, h6]

/-! ## Lines -/

@[simp] theorem Lines.get_set (l : Lines) (i j : Line) (v : Bool) :
    (l.set i v).get j = if j = i then v else l.get j := by
  cases i <;> cases j <;> rfl

end Sys2Proof.Machine
end

