-- ==== Sys2Proof/Laws/Output.lean ====
section
/-! SUPPORT. Laws of the output events: the length and the end levels of a byte transfer, byte-level lists, and the two
ways an emission can end. -/

namespace Sys2Proof.Machine

@[simp] theorem Lines.applyAll_nil (l : Lines) : l.applyAll [] = l := rfl

@[simp] theorem Lines.applyAll_cons (l : Lines) (e : Event) (es : List Event) :
    l.applyAll (e :: es) = (l.apply e).applyAll es := rfl

theorem Lines.applyAll_append (l : Lines) (es fs : List Event) :
    l.applyAll (es ++ fs) = (l.applyAll es).applyAll fs := List.foldl_append

@[simp] theorem xferEvents_length (m : Mode) (b : Byte) : (xferEvents m b).length = 27 := rfl

/-- The levels a byte transfer leaves: bit 0 on SDIN, the clock low, the mode line set, chip-select off (R92). -/
theorem Lines.applyAll_xferEvents (l : Lines) (m : Mode) (b : Byte) :
    l.applyAll (xferEvents m b)
      = { l with sdin := b.getLsbD 0, sclk := false, dc := decide (m = .data), sce := true } := rfl

@[simp] theorem expandAll_nil : expandAll [] = [] := rfl

@[simp] theorem expandAll_cons (i : ByteEvent) (is : List ByteEvent) :
    expandAll (i :: is) = i.expand ++ expandAll is := rfl

theorem expandAll_append (is js : List ByteEvent) :
    expandAll (is ++ js) = expandAll is ++ expandAll js := List.flatMap_append

/-- All that emitting can do: the agent accepts every event and the rest of the command follows, or it does not and the
command waits for ever (R101). -/
theorem emitThen_cases {items : List ByteEvent} {rest : State → State} {s t : State}
    (h : emitThen items rest s = .next t) :
    (s.agentAccepts (expandAll items).length = true ∧ t = rest (s.accept (expandAll items))) ∨
      (s.agentAccepts (expandAll items).length = false ∧ t = s.stall (expandAll items)) := by
  unfold emitThen at h
  split at h
  · exact .inl ⟨‹_›, (Host.Outcome.next.inj h).symm⟩
  · rename_i hn
    exact .inr ⟨by simpa using hn, (Host.Outcome.next.inj h).symm⟩

theorem emitThen_of_accepts {items : List ByteEvent} {rest : State → State} {s : State}
    (h : s.agentAccepts (expandAll items).length = true) :
    emitThen items rest s = .next (rest (s.accept (expandAll items))) := if_pos h

theorem emitThen_of_not_accepts {items : List ByteEvent} {rest : State → State} {s : State}
    (h : s.agentAccepts (expandAll items).length = false) :
    emitThen items rest s = .next (s.stall (expandAll items)) := by
  unfold emitThen
  rw [if_neg (by simp [h])]

/-- All that a command that needs the ready state can do (R97, R98, R107). -/
theorem whenReady_cases {run : State → Result} {s t : State} (h : whenReady run s = .next t) :
    (s.ready = true ∧ run s = .next t) ∨ (s.ready = false ∧ t = raise .notReady s) := by
  unfold whenReady at h
  split at h
  · exact .inl ⟨‹_›, h⟩
  · rename_i hn
    exact .inr ⟨by simpa using hn, (Host.Outcome.next.inj h).symm⟩

/-- An agent that accepts every event accepts any number. -/
@[simp] theorem agentAccepts_of_none {s : State} (n : Nat) (h : s.agent = none) :
    s.agentAccepts n = true := by
  simp [State.agentAccepts, h]

end Sys2Proof.Machine
end

