-- ==== Sys2Proof/Laws/Exec.lean ====
section
/-! SUPPORT. What a command can do, said once: the parts of the state that no command writes, and that the framebuffer's
canonical form is kept. -/

namespace Sys2Proof.Machine

/-- A command always answers a next state: it completes, raises an error, or waits for the signalling agent. -/
theorem exec_next (i : Instr) (s : State) : ∃ t, exec i s = .next t := by
  cases i <;>
    simp only [exec, execNop, execClear, execSetPixel, execDrawLine, execDrawHline, execDrawVline,
      execDrawTriangle, execDrawChar, execWriteByte, execSetCursor, execSetTextAttr, execInit,
      execSetContrast, execFlush, whenReady, emitThen] <;>
    (try split) <;> (try split) <;> exact ⟨_, rfl⟩

/-- What a command that is none of the serializer's can change: the framebuffer, RESULT, the cursor and the text
attributes. -/
theorem exec_frame_of_silent {i : Instr} {s t : State} (hi : ∀ c, i ≠ .init c)
    (hc : ∀ c, i ≠ .setContrast c) (hf : i ≠ .flush) (h : exec i s = .next t) :
    t = { s with
      fb := t.fb, result := t.result, cursorX := t.cursorX, cursorY := t.cursorY,
      textSize := t.textSize, textColor := t.textColor } := by
  cases i with
  | init c => exact absurd rfl (hi c)
  | setContrast c => exact absurd rfl (hc c)
  | flush => exact absurd rfl hf
  | drawHline x y w c =>
    simp only [exec, execDrawHline] at h
    split at h <;> (rw [← Host.Outcome.next.inj h])
  | drawVline x y w c =>
    simp only [exec, execDrawVline] at h
    split at h <;> (rw [← Host.Outcome.next.inj h])
  | writeByte b =>
    simp only [exec, execWriteByte, writeByte] at h
    split at h
    · rw [← Host.Outcome.next.inj h]
    · split at h <;> (rw [← Host.Outcome.next.inj h])
  | _ => rw [← Host.Outcome.next.inj h]

/-- What a serializer command can end in: its error, its wait, or its whole effect. The events stand as a variable with an
equation, so that no later proof unfolds them. -/
theorem execInit_cases {c : Nat} {s t : State} (h : execInit c s = .next t) :
    ∃ es, es = expandAll (initItems c) ∧
      ((s.agentAccepts es.length = true ∧ t = becomeReady (storeContrast c (s.accept es))) ∨
        (s.agentAccepts es.length = false ∧ t = s.stall es)) :=
  ⟨_, rfl, emitThen_cases h⟩

theorem execSetContrast_cases {c : Nat} {s t : State} (h : execSetContrast c s = .next t) :
    (s.ready = false ∧ t = raise .notReady s) ∨
      (s.ready = true ∧ ∃ es, es = expandAll (contrastItems c) ∧
        ((s.agentAccepts es.length = true ∧ t = storeContrast c (s.accept es)) ∨
          (s.agentAccepts es.length = false ∧ t = s.stall es))) := by
  rcases whenReady_cases h with ⟨hr, h⟩ | h
  · exact .inr ⟨hr, _, rfl, emitThen_cases h⟩
  · exact .inl h

theorem execFlush_cases {s t : State} (h : execFlush s = .next t) :
    (s.ready = false ∧ t = raise .notReady s) ∨
      (s.ready = true ∧ ∃ es, es = expandAll (flushItems s.fb) ∧
        ((s.agentAccepts es.length = true ∧ t = s.accept es) ∨
          (s.agentAccepts es.length = false ∧ t = s.stall es))) := by
  rcases whenReady_cases h with ⟨hr, h⟩ | h
  · exact .inr ⟨hr, _, rfl, emitThen_cases h⟩
  · exact .inl h

theorem execInit_of_accepts {c : Nat} {s : State}
    (h : s.agentAccepts (expandAll (initItems c)).length = true) :
    execInit c s = .next (becomeReady (storeContrast c (s.accept (expandAll (initItems c))))) := by
  unfold execInit
  exact emitThen_of_accepts h

theorem execSetContrast_of_accepts {c : Nat} {s : State} (hr : s.ready = true)
    (h : s.agentAccepts (expandAll (contrastItems c)).length = true) :
    execSetContrast c s = .next (storeContrast c (s.accept (expandAll (contrastItems c)))) := by
  unfold execSetContrast whenReady
  rw [if_pos hr]
  exact emitThen_of_accepts h

theorem execFlush_of_accepts {s : State} (hr : s.ready = true)
    (h : s.agentAccepts (expandAll (flushItems s.fb)).length = true) :
    execFlush s = .next (s.accept (expandAll (flushItems s.fb))) := by
  unfold execFlush whenReady
  rw [if_pos hr]
  exact emitThen_of_accepts (rest := fun t => t) h

theorem execInit_fb {c : Nat} {s t : State} (h : execInit c s = .next t) : t.fb = s.fb := by
  obtain ⟨es, -, ⟨-, rfl⟩ | ⟨-, rfl⟩⟩ := execInit_cases h <;> rfl

theorem execSetContrast_fb {c : Nat} {s t : State} (h : execSetContrast c s = .next t) : t.fb = s.fb := by
  obtain ⟨-, rfl⟩ | ⟨-, es, -, ⟨-, rfl⟩ | ⟨-, rfl⟩⟩ := execSetContrast_cases h <;> rfl

theorem execFlush_fb {s t : State} (h : execFlush s = .next t) : t.fb = s.fb := by
  obtain ⟨-, rfl⟩ | ⟨-, es, -, ⟨-, rfl⟩ | ⟨-, rfl⟩⟩ := execFlush_cases h <;> rfl

/-- Every command keeps the framebuffer's canonical form and its reset draw. -/
theorem exec_keeps_memory {i : Instr} {s t : State} (h : exec i s = .next t)
    (hw : Memory.wf s.fb.mem = true) : Memory.wf t.fb.mem = true ∧ t.fb.draw = s.fb.draw := by
  cases i with
  | init c => rw [execInit_fb h]; exact ⟨hw, rfl⟩
  | setContrast c => rw [execSetContrast_fb h]; exact ⟨hw, rfl⟩
  | flush => rw [execFlush_fb h]; exact ⟨hw, rfl⟩
  | nop => rw [← Host.Outcome.next.inj h]; exact ⟨hw, rfl⟩
  | clear => rw [← Host.Outcome.next.inj h]; exact ⟨Framebuffer.wf_clear _, Framebuffer.clear_draw _⟩
  | setPixel x y on =>
    rw [← Host.Outcome.next.inj h]
    exact ⟨wf_setPixel _ _ _ hw, setPixel_draw _ _ _ _⟩
  | drawLine x0 y0 x1 y1 c =>
    rw [← Host.Outcome.next.inj h]
    exact ⟨wf_line hw, line_draw _ _ _ _ _ _⟩
  | drawHline x y w c =>
    simp only [exec, execDrawHline] at h
    split at h <;> rw [← Host.Outcome.next.inj h]
    · exact ⟨hw, rfl⟩
    · exact ⟨wf_line hw, line_draw _ _ _ _ _ _⟩
  | drawVline x y w c =>
    simp only [exec, execDrawVline] at h
    split at h <;> rw [← Host.Outcome.next.inj h]
    · exact ⟨hw, rfl⟩
    · exact ⟨wf_line hw, line_draw _ _ _ _ _ _⟩
  | drawTriangle x1 y1 x2 y2 x3 y3 c =>
    rw [← Host.Outcome.next.inj h]
    exact ⟨wf_line (wf_line (wf_line hw)), by simp⟩
  | drawChar x y code =>
    rw [← Host.Outcome.next.inj h]
    exact ⟨wf_drawChar hw, drawChar_draw _ _ _ _ _⟩
  | writeByte b =>
    simp only [exec, execWriteByte, writeByte] at h
    split at h
    · rw [← Host.Outcome.next.inj h]; exact ⟨hw, rfl⟩
    · split at h <;> rw [← Host.Outcome.next.inj h]
      · exact ⟨hw, rfl⟩
      · exact ⟨wf_drawChar hw, drawChar_draw _ _ _ _ _⟩
  | setCursor x y => rw [← Host.Outcome.next.inj h]; exact ⟨hw, rfl⟩
  | setTextAttr size color => rw [← Host.Outcome.next.inj h]; exact ⟨hw, rfl⟩

end Sys2Proof.Machine
end

