-- ==== Sys2Proof/Laws/PerInstr.lean ====
section
/-! SUPPORT. Statements about every command as syntax, one lemma per constructor: the encoded word holds the opcode in its low
byte and 0 in every bit the format does not name (rules R53, R55, R64). -/

namespace Sys2Proof.Laws.EncodedForm

/-- The word of the command: opcode in byte 0, unnamed bits 0. -/
def Statement (i : Instr) : Prop :=
  wordByte (encode i) 0 = i.opcode ∧ encode i &&& i.namedBits = encode i

/-- How each lemma below is proved: the mask written as bytes, and the AND taken byte by byte. -/
theorem of_mask {i : Instr} (m0 m1 m2 m3 m4 m5 m6 m7 : Byte)
    (hm : i.namedBits = packBytes m0 m1 m2 m3 m4 m5 m6 m7)
    (h : packBytes i.opcode (i.argBytes.getD 0 0) (i.argBytes.getD 1 0) (i.argBytes.getD 2 0)
        (i.argBytes.getD 3 0) (i.argBytes.getD 4 0) (i.argBytes.getD 5 0) (i.argBytes.getD 6 0)
        &&& packBytes m0 m1 m2 m3 m4 m5 m6 m7
      = packBytes i.opcode (i.argBytes.getD 0 0) (i.argBytes.getD 1 0) (i.argBytes.getD 2 0)
        (i.argBytes.getD 3 0) (i.argBytes.getD 4 0) (i.argBytes.getD 5 0) (i.argBytes.getD 6 0)) :
    Statement i :=
  ⟨by simp [encode, packWord], by rw [encode, packWord, hm, h]⟩

theorem nop : Statement .nop := by
  refine of_mask 0xFF 0 0 0 0 0 0 0 (by decide) ?_
  simp [packBytes_and, Instr.argBytes]

theorem clear : Statement .clear := by
  refine of_mask 0xFF 0 0 0 0 0 0 0 (by decide) ?_
  simp [packBytes_and, Instr.argBytes]

theorem setPixel (x y : Nat) (on : Bool) :
    Statement (.setPixel x y on) := by
  refine of_mask 0xFF 0xFF 0xFF 0x01 0 0 0 0 (by rfl) ?_
  simp [packBytes_and, Instr.argBytes]

theorem drawLine (x0 y0 x1 y1 : Nat) (c : Bool) :
    Statement (.drawLine x0 y0 x1 y1 c) := by
  refine of_mask 0xFF 0xFF 0xFF 0xFF 0xFF 0x01 0 0 (by rfl) ?_
  simp [packBytes_and, Instr.argBytes]

theorem drawHline (x y w : Nat) (c : Bool) :
    Statement (.drawHline x y w c) := by
  refine of_mask 0xFF 0xFF 0xFF 0xFF 0x01 0 0 0 (by rfl) ?_
  simp [packBytes_and, Instr.argBytes]

theorem drawVline (x y h : Nat) (c : Bool) :
    Statement (.drawVline x y h c) := by
  refine of_mask 0xFF 0xFF 0xFF 0xFF 0x01 0 0 0 (by rfl) ?_
  simp [packBytes_and, Instr.argBytes]

theorem drawTriangle (x1 y1 x2 y2 x3 y3 : Nat) (c : Bool) :
    Statement (.drawTriangle x1 y1 x2 y2 x3 y3 c) := by
  refine of_mask 0xFF 0xFF 0xFF 0xFF 0xFF 0xFF 0xFF 0x01 (by rfl) ?_
  simp [packBytes_and, Instr.argBytes]

theorem drawChar (x y code : Nat) :
    Statement (.drawChar x y code) := by
  refine of_mask 0xFF 0xFF 0xFF 0xFF 0 0 0 0 (by rfl) ?_
  simp [packBytes_and, Instr.argBytes]

theorem writeByte (b : Nat) :
    Statement (.writeByte b) := by
  refine of_mask 0xFF 0xFF 0 0 0 0 0 0 (by rfl) ?_
  simp [packBytes_and, Instr.argBytes]

theorem setCursor (x y : Nat) :
    Statement (.setCursor x y) := by
  refine of_mask 0xFF 0xFF 0xFF 0 0 0 0 0 (by rfl) ?_
  simp [packBytes_and, Instr.argBytes]

theorem setTextAttr (size : Nat) (color : Bool) :
    Statement (.setTextAttr size color) := by
  refine of_mask 0xFF 0xFF 0x01 0 0 0 0 0 (by rfl) ?_
  simp [packBytes_and, Instr.argBytes]

theorem init (contrast : Nat) :
    Statement (.init contrast) := by
  refine of_mask 0xFF 0xFF 0 0 0 0 0 0 (by rfl) ?_
  simp [packBytes_and, Instr.argBytes]

theorem setContrast (contrast : Nat) :
    Statement (.setContrast contrast) := by
  refine of_mask 0xFF 0xFF 0 0 0 0 0 0 (by rfl) ?_
  simp [packBytes_and, Instr.argBytes]

theorem flush : Statement .flush := by
  refine of_mask 0xFF 0 0 0 0 0 0 0 (by decide) ?_
  simp [packBytes_and, Instr.argBytes]

end Sys2Proof.Laws.EncodedForm
end

