-- ==== Sys2Proof/Laws/Step.lean ====
section
/-! SUPPORT. What a step can do, said once: the cases of step, serve, hostWrite and issue. -/

namespace Sys2Proof.Machine

/-- All that issuing a command can do (R62). -/
theorem issue_cases {v : Byte} {s t : State} (h : issue v s = .next t) :
    (∃ i, decodeWord (commandWord s.args v) = .ok i ∧ exec i s = .next t) ∨
      (∃ r, decodeWord (commandWord s.args v) = .error r ∧ t = raise .illegalCommand s) := by
  unfold issue at h
  split at h
  · exact .inl ⟨_, ‹_›, h⟩
  · exact .inr ⟨_, ‹_›, (Host.Outcome.next.inj h).symm⟩

theorem issue_of_ok {v : Byte} {s : State} {i : Instr}
    (h : decodeWord (commandWord s.args v) = .ok i) : issue v s = exec i s := by
  unfold issue
  rw [h]

theorem issue_of_error {v : Byte} {s : State} {r : Reject}
    (h : decodeWord (commandWord s.args v) = .error r) :
    issue v s = .next (raise .illegalCommand s) := by
  unfold issue
  rw [h]

/-- All that a one-byte host write can do (R41, R43). -/
theorem hostWrite_cases {a : HostAddr} {v : Byte} {s t : State} (h : hostWrite a v s = .next t) :
    (a.toNat < 504 ∧ t = { s with fb := s.fb.write a.toNat v }) ∨
      (a.toNat = 0x200 ∧ issue v s = .next t) ∨
      (∃ k, k < 7 ∧ a.toNat = 0x201 + k ∧ t = storeArg k v s) ∨
      (a.toNat = 0x208 ∧ t = { s with status := statusW1C s.status v }) ∨
      (504 ≤ a.toNat ∧ (a.toNat < 0x200 ∨ 0x208 < a.toNat) ∧ t = s) := by
  unfold hostWrite at h
  split at h
  · exact .inl ⟨‹_›, (Host.Outcome.next.inj h).symm⟩
  · rename_i hlt
    split at h
    · exact .inr (.inl ⟨‹_›, h⟩)
    · exact .inr (.inr (.inl ⟨0, by omega, ‹_›, (Host.Outcome.next.inj h).symm⟩))
    · exact .inr (.inr (.inl ⟨1, by omega, ‹_›, (Host.Outcome.next.inj h).symm⟩))
    · exact .inr (.inr (.inl ⟨2, by omega, ‹_›, (Host.Outcome.next.inj h).symm⟩))
    · exact .inr (.inr (.inl ⟨3, by omega, ‹_›, (Host.Outcome.next.inj h).symm⟩))
    · exact .inr (.inr (.inl ⟨4, by omega, ‹_›, (Host.Outcome.next.inj h).symm⟩))
    · exact .inr (.inr (.inl ⟨5, by omega, ‹_›, (Host.Outcome.next.inj h).symm⟩))
    · exact .inr (.inr (.inl ⟨6, by omega, ‹_›, (Host.Outcome.next.inj h).symm⟩))
    · exact .inr (.inr (.inr (.inl ⟨‹_›, (Host.Outcome.next.inj h).symm⟩)))
    · simp only [Config.cells] at hlt
      simp only [imp_false] at *
      exact .inr (.inr (.inr (.inr ⟨by omega, by omega, (Host.Outcome.next.inj h).symm⟩)))

/-- All that serving a host event can do (R38, R42, R120). -/
theorem serve_cases {e : HostEvent} {s t : State} (h : serve e s = .next t) :
    (∃ a, e = .read a 1 ∧ t = { s with readLog := s.readLog ++ [hostRead a s] }) ∨
      (∃ a v, e = .write a 1 v ∧ hostWrite a v s = .next t) ∨
      (e = .blockReset ∧ t = blockReset s) := by
  cases e with
  | read a n =>
    simp only [serve] at h
    split at h
    · rename_i hn
      subst hn
      exact .inl ⟨a, rfl, (Host.Outcome.next.inj h).symm⟩
    · cases h
  | write a n v =>
    simp only [serve] at h
    split at h
    · rename_i hn
      subst hn
      exact .inr (.inl ⟨a, v, rfl, h⟩)
    · cases h
  | blockReset => exact .inr (.inr ⟨rfl, (Host.Outcome.next.inj h).symm⟩)

/-- All that a step can do: nothing, with no event pending, or serve the next event; in a stalled state that event is a
block reset. -/
theorem step_cases {s t : State} (h : step s = .next t) :
    (s.stalled = false ∧ s.pending = [] ∧ t = s) ∨
      (∃ e rest, s.pending = e :: rest ∧ (s.stalled = true → e = .blockReset) ∧
        serve e { s with pending := rest } = .next t) := by
  unfold step serveNext at h
  split at h
  · exact .inl ⟨‹_›, ‹_›, (Host.Outcome.next.inj h).symm⟩
  · rename_i h1 h2
    exact .inr ⟨_, _, h2, by simp [h1], h⟩
  · rename_i h1 h2
    exact .inr ⟨_, _, h2, fun _ => rfl, h⟩
  · cases h

/-- A step with no event pending changes nothing (R120, R131; log 7). -/
theorem eq_of_step_idle {s t : State} (hp : s.pending = []) (h : step s = .next t) : t = s := by
  rcases step_cases h with ⟨-, -, h⟩ | ⟨e, rest, he, -⟩
  · exact h
  · rw [hp] at he
    cases he

/-- In a state that does not wait, a step serves the next event. -/
theorem step_of_pending {s : State} {e : HostEvent} {rest : List HostEvent} (h : s.stalled = false)
    (hp : s.pending = e :: rest) : step s = serve e { s with pending := rest } := by
  unfold step serveNext
  rw [h, hp]

theorem serve_write (a : HostAddr) (v : Byte) (s : State) : serve (.write a 1 v) s = hostWrite a v s := rfl

theorem serve_read (a : HostAddr) (s : State) :
    serve (.read a 1) s = .next { s with readLog := s.readLog ++ [hostRead a s] } := rfl

theorem hostWrite_cmd (v : Byte) (s : State) : hostWrite 0x200 v s = issue v s := rfl

end Sys2Proof.Machine
end

