-- ==== Sys2Proof/Tests/Slice0.lean ====
section
/-! SUPPORT. Tests: ill-formed commands are refused, words written out from the encoding tables decode, single steps give the
values of 95_test_vectors.md, and concrete states meet the hypotheses of the obligations. Each test names its vector. -/

namespace Sys2Proof.Tests

open Sys2Proof.Machine

/-- The reset state with these cells listed. -/
def withCells (cells : Memory) : State := { State.reset with fb := { draw := 0, mem := cells } }

/-- The reset state with one host event to come. -/
def waiting (e : HostEvent) : State := { State.reset with pending := [e] }

/-- The reset state after the first INIT, as far as STATUS shows it. -/
def readyState : State := { State.reset with status := 0x04 }

/-- The next state of an outcome. -/
def after : Result → Option State
  | .next t => some t
  | .fault _ => none
  | .refused _ => none

/-- The refusal of an outcome. -/
def refusalOf : Result → Option Refusal
  | .next _ => none
  | .fault _ => none
  | .refused r => some r

/-- The fault of an outcome. -/
def faultOf : Result → Option Fault
  | .next _ => none
  | .fault r => some r
  | .refused _ => none

/-- The memory of the next state. -/
def cellsAfter (r : Result) : Option Memory := (after r).map fun t => t.fb.mem

/-- The cursor of the next state. -/
def cursorAfter (r : Result) : Option (Byte × Byte) := (after r).map fun t => (t.cursorX, t.cursorY)

/-- STATUS of the next state. -/
def statusAfter (r : Result) : Option Byte := (after r).map fun t => t.status

/-- The reset state with the text cursor set. -/
def withCursor (x y : Byte) : State := { State.reset with cursorX := x, cursorY := y }

/-! ## WellFormed refuses each operand out of range (R11, R64) -/

theorem test_setPixel_illFormed : (Instr.setPixel 256 0 true).wellFormed = false ∧
    (Instr.setPixel 0 256 true).wellFormed = false := by decide

theorem test_drawLine_illFormed : (Instr.drawLine 256 0 0 0 true).wellFormed = false ∧
    (Instr.drawLine 0 256 0 0 true).wellFormed = false ∧ (Instr.drawLine 0 0 256 0 true).wellFormed = false ∧
    (Instr.drawLine 0 0 0 256 true).wellFormed = false := by decide

theorem test_drawHline_illFormed : (Instr.drawHline 256 0 0 true).wellFormed = false ∧
    (Instr.drawHline 0 256 0 true).wellFormed = false ∧ (Instr.drawHline 0 0 256 true).wellFormed = false := by
  decide

theorem test_drawVline_illFormed : (Instr.drawVline 256 0 0 true).wellFormed = false ∧
    (Instr.drawVline 0 256 0 true).wellFormed = false ∧ (Instr.drawVline 0 0 256 true).wellFormed = false := by
  decide

theorem test_drawTriangle_illFormed : (Instr.drawTriangle 256 0 0 0 0 0 true).wellFormed = false ∧
    (Instr.drawTriangle 0 256 0 0 0 0 true).wellFormed = false ∧
    (Instr.drawTriangle 0 0 256 0 0 0 true).wellFormed = false ∧
    (Instr.drawTriangle 0 0 0 256 0 0 true).wellFormed = false ∧
    (Instr.drawTriangle 0 0 0 0 256 0 true).wellFormed = false ∧
    (Instr.drawTriangle 0 0 0 0 0 256 true).wellFormed = false := by decide

theorem test_drawChar_illFormed : (Instr.drawChar 256 0 0).wellFormed = false ∧
    (Instr.drawChar 0 256 0).wellFormed = false ∧ (Instr.drawChar 0 0 256).wellFormed = false := by decide

theorem test_text_illFormed : (Instr.writeByte 256).wellFormed = false ∧
    (Instr.setCursor 256 0).wellFormed = false ∧ (Instr.setCursor 0 256).wellFormed = false ∧
    (Instr.setTextAttr 256 true).wellFormed = false := by decide

theorem test_serializer_illFormed : (Instr.init 256).wellFormed = false ∧
    (Instr.setContrast 256).wellFormed = false := by decide

/-! ## Words written out from R52, R53 and R55: V-E1 to V-E17 -/

/-- V-E1. -/
theorem test_decode_nop : decodeWord 0x0000000000000000 = .ok .nop := by decide

/-- V-E2. -/
theorem test_decode_clear : decodeWord 0x0000000000000001 = .ok .clear := by decide

/-- V-E3. -/
theorem test_decode_setPixel : decodeWord 0x00000000012F5302 = .ok (.setPixel 83 47 true) := by decide

/-- V-E4. -/
theorem test_decode_drawLine : decodeWord 0x0000010003000010 = .ok (.drawLine 0 0 3 0 true) := by decide

/-- V-E5. -/
theorem test_decode_drawHline : decodeWord 0x0000000103090A11 = .ok (.drawHline 10 9 3 true) := by decide

/-- V-E6. -/
theorem test_decode_drawVline : decodeWord 0x0000000109000012 = .ok (.drawVline 0 0 9 true) := by decide

/-- V-E7. -/
theorem test_decode_drawTriangle : decodeWord 0x0104000004000013 = .ok (.drawTriangle 0 0 4 0 0 4 true) := by
  decide

/-- V-E8. -/
theorem test_decode_drawChar : decodeWord 0x0000000041000020 = .ok (.drawChar 0 0 0x41) := by decide

/-- V-E9. -/
theorem test_decode_writeByte : decodeWord 0x0000000000004121 = .ok (.writeByte 0x41) := by decide

/-- V-E10. -/
theorem test_decode_setCursor : decodeWord 0x0000000000284822 = .ok (.setCursor 72 40) := by decide

/-- V-E11. -/
theorem test_decode_setTextAttr : decodeWord 0x0000000000000123 = .ok (.setTextAttr 1 false) := by decide

/-- V-E12. -/
theorem test_decode_init : decodeWord 0x000000000000C830 = .ok (.init 200) := by decide

/-- V-E13. -/
theorem test_decode_setContrast : decodeWord 0x0000000000005031 = .ok (.setContrast 0x50) := by decide

/-- V-E14. -/
theorem test_decode_flush : decodeWord 0x0000000000000032 = .ok .flush := by decide

/-- V-E15, V-E16, V-E17, and the stale bytes of program P3, step 5. -/
theorem test_decode_ignored_bits :
    decodeWord 0x00000000FF010102 = .ok (.setPixel 1 1 true) ∧
    decodeWord 0x00000000FE010102 = .ok (.setPixel 1 1 false) ∧
    decodeWord 0x0000000000020123 = .ok (.setTextAttr 1 false) ∧
    decodeWord 0xFFFFFFFF01010102 = .ok (.setPixel 1 1 true) ∧
    decodeWord 0x0104000103090A11 = .ok (.drawHline 10 9 3 true) := by decide

/-- V-E18 and R59: opcodes that no command has are rejected by name. -/
theorem test_decode_rejects :
    decodeWord 0x14 = .error .reservedRectangle ∧ decodeWord 0x33 = .error .reservedPowerDown ∧
    decodeWord 0x03 = .error (.undefinedOpcode 0x03) ∧ decodeWord 0xFF = .error (.undefinedOpcode 0xFF) := by
  decide

/-- Seven bytes are no command word; eight bytes leave the bytes after them (R52, R61). -/
theorem test_decode_bytes :
    decode [0x22, 0x48, 0x28, 0, 0, 0, 0] = .error (.truncated 7) ∧
    decode [0x22, 0x48, 0x28, 0, 0, 0, 0, 0, 0xAB] = .ok (.setCursor 72 40, [0xAB]) := by decide

/-- The words of R64's example and of V-E7 as the encoder writes them. -/
theorem test_encode : encode (.drawLine 0 0 3 0 true) = 0x0000010003000010 ∧
    encode (.drawTriangle 0 0 4 0 0 4 true) = 0x0104000004000013 := by decide

/-- The opcode table numbers bits from the first byte, and operand bytes it gives no bits are 0. -/
theorem test_decodeTableWord : decodeTableWord 8 0x10 = some (.drawLine 0 0 0 0 false) ∧
    decodeTableWord 64 0x0104000004000013 = some (.drawTriangle 0 0 4 0 0 4 true) ∧
    decodeTableWord 8 0x14 = none := by decide

/-! ## One step, or one command, at a time -/

/-- V-F8. -/
theorem test_nop : after (exec .nop (withCells [(7, 0xAA)])) = some (withCells [(7, 0xAA)]) := by decide

/-- V-F5: the cursor moves to (0, 0); size and colour stay. -/
theorem test_clear_cursor :
    (after (exec .clear { withCursor 30 16 with textSize := 2, textColor := 0 })).map
      (fun t => (t.cursorX, t.cursorY, t.textSize, t.textColor)) = some (0, 0, 2, 0) := by
  decide

/-- V-F5: an entry for each cell, the last one at 0x1F7, 0x00. -/
theorem test_clear_cells : cellsAfter (exec .clear (withCells [(0, 0xFF)]))
    = some ((List.range 504).map fun i => (i, 0x00)) := by
  simp only [cellsAfter, after, exec, execClear, Framebuffer.clear, Option.map_some]

/-- V-F1, V-F3. -/
theorem test_setPixel_on :
    cellsAfter (exec (.setPixel 83 47 true) (withCells [(503, 0x00)])) = some [(503, 0x80)] ∧
    cellsAfter (exec (.setPixel 5 13 true) (withCells [(89, 0x00)])) = some [(89, 0x20)] := by decide

/-- V-F2, and the second step of V-F4b. -/
theorem test_setPixel_clipped_and_off :
    after (exec (.setPixel 84 0 true) State.reset) = some State.reset ∧
    after (exec (.setPixel 0 48 true) State.reset) = some State.reset ∧
    cellsAfter (exec (.setPixel 0 0 false) (withCells [(0, 0x01)])) = some [(0, 0x00)] := by decide

/-- The points of V-L4, V-L6, V-L9 and V-L10, and of the lines of the error traces. -/
theorem test_linePoints :
    linePoints 0 0 4 2 = [(0, 0), (1, 1), (2, 1), (3, 2)] ∧
    linePoints 0 3 3 0 = [(0, 3), (1, 2), (2, 1)] ∧
    linePoints 2 0 0 5 = [(0, 4), (1, 3), (1, 2), (2, 1), (2, 0)].reverse ∧
    linePoints 10 10 0 12 = [(0, 12), (1, 12), (2, 12), (3, 11), (4, 11), (5, 11), (6, 11), (7, 11), (8, 10),
      (9, 10)] ∧
    linePoints 0 0 3 2 = [(0, 0), (1, 1), (2, 1)] ∧
    linePoints 0 0 5 1 = [(0, 0), (1, 0), (2, 0), (3, 1), (4, 1)] := by decide

/-- The error accumulator of V-L4 and of DRAW_LINE 0, 0, 3, 2 after each iteration. -/
theorem test_line_errors :
    ((List.range 4).map fun k => (lineIter 4 2 1 (k + 1) (0, 0)).2) = [-2, 0, -2, 0] ∧
    ((List.range 3).map fun k => (lineIter 3 2 1 (k + 1) (0, 0)).2) = [-1, 1, 0] ∧
    ((List.range 5).map fun k => (lineIter 5 2 (-1) (k + 1) (2, 0)).2) = [2, -1, 1, -2, 0] := by decide

/-- V-L1 and V-L23. -/
theorem test_drawLine :
    cellsAfter (exec (.drawLine 0 0 3 0 true) (withCells [(0, 0), (1, 0), (2, 0), (3, 0)]))
      = some [(0, 1), (1, 1), (2, 1), (3, 0)] ∧
    cellsAfter (exec (.drawLine 0 0 0 4 false) (withCells [(0, 0xFF)])) = some [(0, 0xF0)] := by decide

/-- V-L16, V-L17 and V-L19. -/
theorem test_drawHline :
    cellsAfter (exec (.drawHline 10 9 3 true) (withCells [(94, 0), (95, 0), (96, 0)]))
      = some [(94, 2), (95, 2), (96, 0)] ∧
    after (exec (.drawHline 10 9 1 true) State.reset) = some State.reset ∧
    after (exec (.drawHline 10 9 0 true) State.reset) = some State.reset ∧
    after (exec (.drawHline 200 0 255 true) State.reset) = some State.reset := by decide

/-- V-L20 and V-L21. -/
theorem test_drawVline :
    cellsAfter (exec (.drawVline 0 0 9 true) (withCells [(0, 0), (84, 0)])) = some [(0, 0xFF), (84, 0)] ∧
    cellsAfter (exec (.drawVline 5 44 10 true) (withCells [(425, 0)])) = some [(425, 0xF0)] := by decide

/-- V-L12 and V-L13. -/
theorem test_drawTriangle :
    cellsAfter (exec (.drawTriangle 0 0 4 0 0 4 true) (withCells [(0, 0), (1, 0), (2, 0), (3, 0), (4, 0)]))
      = some [(0, 0x1F), (1, 0x09), (2, 0x05), (3, 0x03), (4, 0x00)] ∧
    cellsAfter (exec (.drawTriangle 0 0 3 3 6 0 true)
        (withCells [(0, 0), (1, 0), (2, 0), (3, 0), (4, 0), (5, 0), (6, 0)]))
      = some [(0, 1), (1, 3), (2, 5), (3, 9), (4, 5), (5, 3), (6, 0)] := by decide

/-- V-G1 with V-G7: the cells are replaced, and RESULT is 6. -/
theorem test_drawChar_replaces :
    (after (exec (.drawChar 0 0 0x41) (withCells [(2, 0xFF), (86, 0x01)]))).map
      (fun t => (t.fb.mem, t.result))
      = some ([(0, 0x7E), (1, 0x11), (2, 0x11), (3, 0x11), (4, 0x7E), (86, 0x01)], 6) := by decide

/-- V-G2, V-G3, V-G5b, V-G8 and V-G9. -/
theorem test_drawChar_bounds :
    (after (exec (.drawChar 78 0 0x41) State.reset)).map (fun t => t.result) = some 84 ∧
    (after (exec (.drawChar 79 0 0x41) State.reset)).map (fun t => (t.fb, t.result))
      = some (State.reset.fb, 79) ∧
    (after (exec (.drawChar 5 0 0xB4) State.reset)).map (fun t => (t.fb, t.result)) = some (State.reset.fb, 5) ∧
    cellsAfter (exec (.drawChar 0 8 0x41) { State.reset with textColor := 0 })
      = some [(84, 0x81), (85, 0xEE), (86, 0xEE), (87, 0xEE), (88, 0x81)] ∧
    (after (exec (.drawChar 250 0 0x41) State.reset)).map (fun t => (t.fb, t.result))
      = some (State.reset.fb, 250) := by decide

/-- V-T1, V-T5, V-T6, V-T8, V-T11 and the second byte of V-T7. -/
theorem test_writeByte_glyph :
    cursorAfter (exec (.writeByte 0x41) (withCursor 0 0)) = some (6, 0) ∧
    cursorAfter (exec (.writeByte 0x41) (withCursor 78 0)) = some (0, 8) ∧
    cursorAfter (exec (.writeByte 0x41) (withCursor 79 0)) = some (0, 8) ∧
    cellsAfter (exec (.writeByte 0x41) (withCursor 79 0)) = some [] ∧
    cursorAfter (exec (.writeByte 0x41) (withCursor 0 48)) = some (6, 0) ∧
    cursorAfter (exec (.writeByte 0xFF) (withCursor 0 0)) = some (6, 0) ∧
    cursorAfter (exec (.writeByte 0x41) (withCursor 78 40)) = some (0, 0) := by decide

/-- V-T8, V-T9, V-T10, V-T13a and V-T14. -/
theorem test_writeByte_newline :
    cursorAfter (exec (.writeByte 0x0A) (withCursor 0 40)) = some (0, 48) ∧
    cursorAfter (exec (.writeByte 0x0A) { withCursor 0 40 with newlineWrapsY := true }) = some (0, 0) ∧
    cursorAfter (exec (.writeByte 0x0A) (withCursor 0 250)) = some (0, 2) ∧
    cursorAfter (exec (.writeByte 0x0A) { withCursor 12 0 with textSize := 2 }) = some (0, 16) ∧
    cursorAfter (exec (.writeByte 0x0A) { withCursor 0 0 with textSize := 255 }) = some (0, 248) := by decide

/-- V-E10's command, and V-E16's. -/
theorem test_text_registers :
    cursorAfter (exec (.setCursor 72 40) State.reset) = some (72, 40) ∧
    (after (exec (.setTextAttr 2 false) State.reset)).map (fun t => (t.textSize, t.textColor))
      = some (2, 0) := by decide

/-- V-S1. -/
theorem test_xfer_V_S1 : xferEvents .cmd 0x21 =
    [.set .dc false, .set .sce false,
      .set .sdin false, .set .sclk true, .set .sclk false, .set .sdin false, .set .sclk true, .set .sclk false,
      .set .sdin true, .set .sclk true, .set .sclk false, .set .sdin false, .set .sclk true, .set .sclk false,
      .set .sdin false, .set .sclk true, .set .sclk false, .set .sdin false, .set .sclk true, .set .sclk false,
      .set .sdin false, .set .sclk true, .set .sclk false, .set .sdin true, .set .sclk true, .set .sclk false,
      .set .sce true] := by decide

/-- V-S3 and V-S4: CONTRAST and READY after INIT, and the VOP bytes it sends. -/
theorem test_init :
    (after (exec (.init 200) State.reset)).map (fun t => (t.contrast, t.status)) = some (0x7F, 0x04) ∧
    vopByte (clamp 0) = 0x80 ∧ vopByte (clamp 0x7F) = 0xFF ∧ vopByte (clamp 0x80) = 0xFF ∧
    vopByte (clamp 0x30) = 0xB0 := by decide +kernel

/-- V-S5 and V-S6. -/
theorem test_setContrast :
    contrastItems 0x50 = [.xfer .cmd 0x21, .xfer .cmd 0xD0, .xfer .cmd 0x20] ∧
    (after (exec (.setContrast 0x50) readyState)).map (fun t => (t.contrast, t.trace.length))
      = some (0x50, 81) ∧
    (after (exec (.setContrast 0x50) State.reset)).map (fun t => (t.contrast, t.status, t.trace))
      = some (0x00, 0x02, []) := by decide +kernel

/-- V-S7 and the length of V-S8. -/
theorem test_flush :
    (after (exec .flush State.reset)).map (fun t => (t.status, t.trace)) = some (0x02, []) ∧
    (flushItems State.reset.fb).length = 517 := by decide +kernel

/-- V-X1, V-X3. -/
theorem test_illegal_opcode :
    statusAfter (step (waiting (.write 0x200 1 0x14))) = some 0x01 ∧
    statusAfter (step (waiting (.write 0x200 1 0x33))) = some 0x01 := by decide

/-- V-M5: W1C bits, READY kept. -/
theorem test_status_write :
    statusAfter (serve (.write 0x208 1 0x01) { State.reset with status := 0x07 }) = some 0x06 ∧
    statusAfter (serve (.write 0x208 1 0x04) { State.reset with status := 0x06 }) = some 0x06 ∧
    statusAfter (serve (.write 0x208 1 0xFF) { State.reset with status := 0x06 }) = some 0x04 := by decide

/-- V-M1. -/
theorem test_aperture_write :
    cellsAfter (step (waiting (.write 0x054 1 0x55))) = some [(84, 0x55)] ∧
    cellsAfter (step (waiting (.write 0x1F7 1 0x80))) = some [(503, 0x80)] := by decide

/-- V-M2, V-M3, V-M4, V-M9: reserved addresses, CMD, a RO register, a two-byte access. -/
theorem test_bus_corners :
    hostRead 0x1F8 State.reset = 0 ∧ hostRead 0x210 State.reset = 0 ∧ hostRead 0x3FF State.reset = 0 ∧
    hostRead 0x200 State.reset = 0 ∧
    after (serve (.write 0x1F8 1 0x12) State.reset) = some State.reset ∧
    after (serve (.write 0x20A 1 0x05) State.reset) = some State.reset ∧
    refusalOf (step (waiting (.read 0x000 2))) = some (.accessWidth 2) := by decide

/-- V-R1. -/
theorem test_reset_reads :
    [0x201, 0x207, 0x208, 0x209, 0x20A, 0x20B, 0x20C, 0x20D, 0x20E, 0x20F].map
      (fun a => hostRead a State.reset) = [0, 0, 0, 0, 0, 0, 0x01, 0x01, 0, 0x18] := by decide

/-- The step after withFetchWord runs the placed command: V-E10. -/
theorem test_withFetchWord :
    cursorAfter (step (State.reset.withFetchWord 24 0x284822)) = some (72, 40) := by decide

/-- R101, V8: an agent that accepts 5 of INIT's events leaves them on the trace, and the next access never starts. -/
theorem test_stuck_agent :
    (after (exec (.init 0) { State.reset with agent := some 5 })).map
      (fun t => (t.trace.length, t.status, t.stalled, faultOf (step t)))
      = some (5, 0, true, some .signallingStuck) := by decide +kernel

/-! ## The assembler: R64's example, V-M7, V-M8, and text -/

theorem test_assemble_example : assemble (.command (.drawLine 0 0 3 0 true)) =
    some [.write 0x201 1 0x00, .write 0x202 1 0x00, .write 0x203 1 0x03, .write 0x204 1 0x00,
      .write 0x205 1 0x01, .write 0x200 1 0x10] := by decide

theorem test_assemble_pixels : assemble (.readPixel 83 47) = some [.read 0x1F7 1] ∧
    readPixelResult 47 0x80 = true ∧ assemble (.readPixel 84 0) = none ∧
    assemble (.command (.setCursor 256 0)) = none ∧ assemble (.loadBitmap [0, 0]) = none := by decide

theorem test_parse :
    parseLine "DRAW_LINE 0, 0, 0x03, 0, 1".toList = some (.command (.drawLine 0 0 3 0 true)) ∧
    parseLine "DRAW_CHAR 0, 0, 'A'".toList = some (.command (.drawChar 0 0 0x41)) ∧
    parseLine "WRITE_STRING 0, 0, \"A\\nB\"".toList = some (.writeString 0 0 [0x41, 0x0A, 0x42]) ∧
    parseLine "SET_PIXEL 1, 1, 2".toList = none ∧
    parseLine "CLEAR_STATUS".toList = some .clearStatus := by decide +kernel

/-! ## Witnesses: a state and operands that meet the hypotheses of each obligation

One theorem for each obligation with hypotheses, at boundary values of its clauses. -/

theorem test_witness_DecodeEncodeAgree :
    (Instr.drawTriangle 0 255 0 255 0 255 true).wellFormed = true ∧
    (Instr.drawLine 255 0 255 0 false).wellFormed = true ∧ (Instr.setTextAttr 255 true).wellFormed = true := by
  decide

theorem test_witness_UnnamedBitsAreIgnored :
    (Instr.setPixel 83 47 false).wellFormed = true ∧
    0xFFFFFFFFFE2F5302 &&& (Instr.setPixel 83 47 false).namedBits = encode (.setPixel 83 47 false) ∧
    (∃ t, exec .nop State.reset = .next t) := ⟨by decide, by decide, _, rfl⟩

theorem test_witness_DecodedWordHoldsItsEncoding :
    decodeWord 0xFFFFFFFFFE2F5302 = .ok (.setPixel 83 47 false) := by decide

theorem test_witness_UndefinedOpcodeRaisesIllegal :
    (waiting (.write 0x200 1 0x14)).stalled = false ∧
    (waiting (.write 0x200 1 0x14)).pending = [.write 0x200 1 0x14] ∧
    (0x14 : Byte).toNat ∉ definedOpcodes ∧ (0xFF : Byte).toNat ∉ definedOpcodes ∧
    (0x03 : Byte).toNat ∉ definedOpcodes := by decide

theorem test_witness_CmdWriteIssuesCommand :
    (waiting (.write 0x200 1 0x02)).stalled = false ∧
    (waiting (.write 0x200 1 0x02)).pending = [.write 0x200 1 0x02] ∧
    (0x0000000000000002 : BitVec 64) = (0x00 : Byte) ++ (0x00 : Byte) ++ (0x00 : Byte) ++ (0x00 : Byte)
      ++ (0x00 : Byte) ++ (0x00 : Byte) ++ (0x00 : Byte) ++ (0x02 : Byte) ∧
    decodeWord 0x0000000000000002 = .ok (.setPixel 0 0 false) ∧
    decodeWord 0x0000000000000014 = .error .reservedRectangle := by decide

theorem test_witness_FetchedWordIsExecuted :
    decodeTableWord 24 0x284822 = some (.setCursor 72 40) ∧ decodeTableWord 8 0x00 = some .nop := by decide

theorem test_witness_OtherWidthsAreRefused :
    (waiting (.read 0x3FF 1)).stalled = false ∧ (waiting (.read 0x3FF 1)).pending = [.read 0x3FF 1] ∧
    (waiting (.read 0x000 0)).pending = [.read 0x000 0] ∧ (0 : Nat) ≠ 1 ∧
    (waiting (.write 0x200 2 0x01)).pending = [.write 0x200 2 0x01] ∧ (2 : Nat) ≠ 1 := by decide

theorem test_witness_ApertureWriteSetsOneCell :
    (waiting (.write 0x1F7 1 0x80)).stalled = false ∧ (0x1F7 : HostAddr).toNat ≤ 0x1F7 ∧
    (waiting (.write 0x1F7 1 0x80)).pending = [.write 0x1F7 1 0x80] ∧
    5 < 6 ∧ 83 < 84 ∧ 5 = (0x1F7 : HostAddr).toNat / 84 ∧ 83 = (0x1F7 : HostAddr).toNat % 84 := by decide

theorem test_witness_ApertureReadReturnsCell :
    (waiting (.read 0x1F7 1)).stalled = false ∧ (0x1F7 : HostAddr).toNat ≤ 0x1F7 ∧
    (waiting (.read 0x1F7 1)).pending = [.read 0x1F7 1] := by decide

/-- Reads and writes at the ends of each range of the register map. -/
theorem test_witness_RegisterAndReservedAccesses :
    ([0x1F8, 0x1FF, 0x200, 0x201, 0x207, 0x208, 0x209, 0x20A, 0x20B, 0x20C, 0x20D, 0x20E, 0x20F, 0x210,
      0x3FF] : List HostAddr).all (fun a =>
        decide ((waiting (.read a 1)).stalled = false ∧ 0x1F8 ≤ a.toNat ∧
          (waiting (.read a 1)).pending = [.read a 1])) = true ∧
    ([0x1F8, 0x1FF, 0x209, 0x3FF] : List HostAddr).all (fun a =>
        decide ((waiting (.write a 1 0xFF)).pending = [.write a 1 0xFF] ∧
          ((0x1F8 ≤ a.toNat ∧ a.toNat ≤ 0x1FF) ∨ 0x209 ≤ a.toNat))) = true ∧
    (waiting (.write 0x208 1 0x03)).pending = [.write 0x208 1 0x03] ∧ (0x208 : HostAddr).toNat = 0x208 ∧
    (0x201 : HostAddr).toNat = 0x201 + 0 ∧ (0x207 : HostAddr).toNat = 0x201 + 6 ∧ 6 < 7 ∧
    (0x200 : HostAddr).toNat = 0x200 := by decide

theorem test_witness_RepeatedAccesses :
    (∃ t, serve (.read 0x208 1) State.reset = .next t) ∧
    (0x000 : HostAddr).toNat ≠ 0x200 ∧ (0x000 : HostAddr).toNat ≤ 0x1F7 ∧ (0x1F7 : HostAddr).toNat ≤ 0x1F7 ∧
    0x201 ≤ (0x201 : HostAddr).toNat ∧ (0x207 : HostAddr).toNat ≤ 0x207 ∧ (0x208 : HostAddr).toNat = 0x208 ∧
    0x1F8 ≤ (0x1F8 : HostAddr).toNat ∧ (0x1F8 : HostAddr).toNat < 0x200 ∧ 0x208 < (0x209 : HostAddr).toNat ∧
    (5 < 6 ∧ 83 < 84 ∧ 6 < 7 ∧ 7 < 8 ∧ 5 = (0x1F7 : HostAddr).toNat / 84 ∧ 83 = (0x1F7 : HostAddr).toNat % 84) ∧
    decodeWord (commandWord State.reset.args 0x00) = .ok .nop ∧ (∃ t, exec .nop State.reset = .next t) :=
  ⟨⟨_, rfl⟩, by decide, by decide, by decide, by decide, by decide, by decide, by decide, by decide, by decide,
    by decide, by decide, _, rfl⟩

theorem test_witness_BlockResetFromAnyState :
    ({ waiting .blockReset with stalled := true } : State).pending = [.blockReset] := by decide

/-- The opcode byte of the words of V-E1 to V-E14, for the decoding clause of each command's statement. -/
theorem test_witness_opcode_bytes :
    (0x0000000000000000 : BitVec 64).extractLsb' 0 8 = 0x00#8 ∧
    (0x0000000000000001 : BitVec 64).extractLsb' 0 8 = 0x01#8 ∧
    (0x00000000012F5302 : BitVec 64).extractLsb' 0 8 = 0x02#8 ∧
    (0x0000010003000010 : BitVec 64).extractLsb' 0 8 = 0x10#8 ∧
    (0x0000000103090A11 : BitVec 64).extractLsb' 0 8 = 0x11#8 ∧
    (0x0000000109000012 : BitVec 64).extractLsb' 0 8 = 0x12#8 ∧
    (0x0104000004000013 : BitVec 64).extractLsb' 0 8 = 0x13#8 ∧
    (0x0000000041000020 : BitVec 64).extractLsb' 0 8 = 0x20#8 ∧
    (0x0000000000004121 : BitVec 64).extractLsb' 0 8 = 0x21#8 ∧
    (0x0000000000284822 : BitVec 64).extractLsb' 0 8 = 0x22#8 ∧
    (0x0000000000000123 : BitVec 64).extractLsb' 0 8 = 0x23#8 ∧
    (0x000000000000C830 : BitVec 64).extractLsb' 0 8 = 0x30#8 ∧
    (0x0000000000005031 : BitVec 64).extractLsb' 0 8 = 0x31#8 ∧
    (0x0000000000000032 : BitVec 64).extractLsb' 0 8 = 0x32#8 := by decide

theorem test_witness_NopChangesNothing : (0xFFFFFFFFFFFFFF00 : BitVec 64).extractLsb' 0 8 = 0x00#8 := by decide

theorem test_witness_ClearZeroesCellsAndCursor :
    (0xFFFFFFFFFFFFFF01 : BitVec 64).extractLsb' 0 8 = 0x01#8 ∧ 5 < 6 ∧ 83 < 84 ∧ 47 < 48 := by decide

theorem test_witness_SetPixelChangesOnePixel :
    (0x00000000012F5302 : BitVec 64).extractLsb' 0 8 = 0x02#8 ∧ (84 ≤ 84 ∨ 48 ≤ 0) ∧ (84 ≤ 0 ∨ 48 ≤ 48) ∧
    83 < 84 ∧ 47 < 48 ∧ 5 < 6 ∧ ¬(0 = 47 / 8 ∧ 83 = 83) := by decide

theorem test_witness_DrawLinePlotsLinePoints :
    (0x0000010003000010 : BitVec 64).extractLsb' 0 8 = 0x10#8 ∧ 83 < 84 ∧ 47 < 48 ∧
    (83, 47) ∈ linePoints 83 47 84 47 ∧ (83, 47) ∉ linePoints 82 47 83 47 := by decide

/-- A steep line whose ends swap; the update of `err` on both sides of its comparison. -/
theorem test_witness_LinePointsFollowTheLoop :
    true = decide (absdiff 0 4 > absdiff 1 3) ∧
    (4 : Nat) > 0 ∧ (Segment.mk 3 4 1 0).major = { x0 := 0, y0 := 1, x1 := 4, y1 := 3 } ∧ 3 < 4 - 0 ∧
    linePoints 3 4 1 0 = [(1, 0), (2, 1), (2, 2), (3, 3)] := by decide

/-- A line that is not steep, and a steep one, at their last point. -/
theorem test_witness_LineExcludesLargerEnd :
    (linePoints 255 0 0 0)[254]? = some (254, 0) ∧ absdiff 0 0 ≤ absdiff 0 255 ∧
    (linePoints 0 255 0 0)[254]? = some (0, 254) ∧ absdiff 0 255 > absdiff 0 0 := by decide +kernel

theorem test_witness_LineMinorStaysInRange :
    absdiff (Segment.major { x0 := 5, y0 := 5, x1 := 5, y1 := 5 }).y1
      (Segment.major { x0 := 5, y0 := 5, x1 := 5, y1 := 5 }).y0 = 0 ∧
    255 ≤ 255 ∧ ((1 : Int) = 1 ∨ (1 : Int) = -1) ∧ ((-1 : Int) = 1 ∨ (-1 : Int) = -1) ∧
    (3, 2) ∈ linePoints 0 0 4 2 := by decide

theorem test_witness_LineErrorIsBounded :
    255 ≤ 255 ∧ 1 ≤ 255 ∧ (lineIter 255 255 1 0 (0, 0)).2 + 255 = (255 : Int) := by decide

theorem test_witness_DrawHlinePlotsRow :
    (0x0000000103090A11 : BitVec 64).extractLsb' 0 8 = 0x11#8 ∧ 0 ≤ 1 ∧ 1 ≤ 1 ∧ 255 < 256 ∧ 83 < 84 ∧ 47 < 48 ∧
    (47 = 47 ∧ 82 ≤ 83 ∧ 83 + 1 < 82 + 3) := by decide

theorem test_witness_DrawVlinePlotsColumn :
    (0x0000000109000012 : BitVec 64).extractLsb' 0 8 = 0x12#8 ∧ 0 ≤ 1 ∧ 1 ≤ 1 ∧ 255 < 256 ∧ 83 < 84 ∧ 47 < 48 ∧
    (83 = 83 ∧ 46 ≤ 47 ∧ 47 + 1 < 46 + 3) := by decide

theorem test_witness_DrawTrianglePlotsThreeSides :
    (0x0104000004000013 : BitVec 64).extractLsb' 0 8 = 0x13#8 ∧ 0 < 84 ∧ 3 < 48 ∧
    (0, 3) ∈ linePoints 0 4 0 0 ∧ (4, 0) ∉ linePoints 0 0 4 0 ∧ (4, 0) ∉ linePoints 4 0 0 4 ∧
    (4, 0) ∉ linePoints 0 4 0 0 := by decide

/-- A step that changes the lines: INIT releases the reset line. -/
theorem test_witness_ResetLineLevels :
    (waiting (.write 0x200 1 0x30)).pending.head? ≠ some .blockReset ∧
    (after (step { waiting (.write 0x200 1 0x30) with lines := { Lines.reset with rst := false } })).map
      (fun t => t.lines.rst) = some true := by decide +kernel

/-- Nothing drawn: at each bound. A glyph drawn: the largest x and the last code. -/
theorem test_witness_DrawCharReplacesFiveCells :
    (0x0000000041000020 : BitVec 64).extractLsb' 0 8 = 0x20#8 ∧ 255 < 256 ∧
    (48 ≤ 48 ∨ 84 ≤ 0 + 5 ∨ 0x41 < 0x20 ∨ 0xB3 < 0x41) ∧ (48 ≤ 0 ∨ 84 ≤ 79 + 5 ∨ 0x41 < 0x20 ∨ 0xB3 < 0x41) ∧
    (48 ≤ 0 ∨ 84 ≤ 0 + 5 ∨ 0x1F < 0x20 ∨ 0xB3 < 0x1F) ∧ (48 ≤ 0 ∨ 84 ≤ 0 + 5 ∨ 0xB4 < 0x20 ∨ 0xB3 < 0xB4) ∧
    (47 < 48 ∧ 78 + 5 < 84 ∧ 0x20 ≤ 0xB3 ∧ 0xB3 ≤ 0xB3) := by decide

/-- Each branch: the newline, the carriage return, and glyph bytes on the two sides of the x wrap and the bottom wrap. -/
theorem test_witness_WriteByteDrawsAndAdvances :
    (0x0000000000004121 : BitVec 64).extractLsb' 0 8 = 0x21#8 ∧ 0x0A < 256 ∧ 0x0D < 256 ∧
    (0x41 < 256 ∧ 0x41 ≠ 0x0A ∧ 0x41 ≠ 0x0D) ∧
    (withCursor 72 40).cursorX.toNat + 6 * (withCursor 72 40).textSize.toNat < 79 ∧
    79 ≤ (withCursor 73 40).cursorX.toNat + 6 * (withCursor 73 40).textSize.toNat ∧
    48 ≤ (withCursor 73 40).cursorY.toNat + 8 ∧ 48 ≤ (withCursor 0 48).cursorY.toNat ∧
    ({ withCursor 0 40 with newlineWrapsY := true } : State).newlineWrapsY = true ∧
    48 ≤ (withCursor 0 40).cursorY.toNat + 8 * (withCursor 0 40).textSize.toNat := by decide

theorem test_witness_TextRegisterStores :
    (0x0000000000284822 : BitVec 64).extractLsb' 0 8 = 0x22#8 ∧
    (0x0000000000000123 : BitVec 64).extractLsb' 0 8 = 0x23#8 ∧ 255 < 256 := by decide

theorem test_witness_GlyphBytesWalkTheDisplay :
    (∀ b ∈ [0x41, 0x00, 0xFF], b < 256 ∧ b ≠ 0x0A ∧ b ≠ 0x0D) ∧ State.reset.textSize = 0x01 ∧
    State.reset.cursorX = 0x00 ∧ State.reset.cursorY = 0x00 := by decide

theorem test_witness_TransferEventsInOrder : 0 < 8 ∧ 7 < 8 := by decide

theorem test_witness_InitRunsResetSequence :
    (0x000000000000C830 : BitVec 64).extractLsb' 0 8 = 0x30#8 ∧ 255 < 256 ∧
    State.reset.agentAccepts 139 = true ∧ ({ State.reset with agent := some 139 } : State).agentAccepts 139 = true := by
  decide

theorem test_witness_SetContrastSendsVop :
    (0x0000000000005031 : BitVec 64).extractLsb' 0 8 = 0x31#8 ∧ 255 < 256 ∧ State.reset.ready = false ∧
    readyState.ready = true ∧ readyState.agentAccepts 81 = true ∧
    ({ readyState with agent := some 81 } : State).agentAccepts 81 = true := by decide

theorem test_witness_FlushSendsEveryCell :
    (0x0000000000000032 : BitVec 64).extractLsb' 0 8 = 0x32#8 ∧ State.reset.ready = false ∧
    readyState.ready = true ∧ readyState.agentAccepts 13959 = true ∧
    ({ readyState with agent := some 13959 } : State).agentAccepts 13959 = true ∧ 5 < 6 ∧ 83 < 84 := by decide

theorem test_witness_NotReadyBeforeInit :
    (Instr.flush = .flush ∨ ∃ c : Nat, Instr.flush = .setContrast c) ∧
    (Instr.setContrast 0 = .flush ∨ ∃ c : Nat, Instr.setContrast 0 = .setContrast c) ∧
    State.reset.ready = false := ⟨.inl rfl, .inr ⟨0, rfl⟩, by decide⟩

theorem test_witness_TransferCounts :
    decodeWord (commandWord State.reset.args 0x14) = .error .reservedRectangle ∧
    State.reset.agent = none ∧ readyState.agent = none ∧ readyState.ready = true ∧
    isSerializer .nop = false ∧ (State.reset.ready = false ∧ ∀ c : Nat, Instr.flush ≠ .init c) :=
  ⟨by decide, by decide, by decide, by decide, by decide, by decide, fun _ => nofun⟩

theorem test_witness_UnacceptedEventStallsForEver :
    ({ State.reset with agent := some 138 } : State).agent = some 138 ∧ 138 < 139 ∧
    (∃ c : Nat, Instr.init 0 = .init c ∧ initItems 0 = initItems c) ∧
    ({ readyState with agent := some 0 } : State).agent = some 0 ∧ 0 < 81 ∧
    ({ readyState with agent := some 0 } : State).ready = true ∧ 13958 < 13959 ∧
    (∀ rest : List HostEvent, State.reset.pending ≠ .blockReset :: rest) :=
  ⟨by decide, by decide, ⟨0, rfl, rfl⟩, by decide, by decide, by decide, by decide, fun _ => nofun⟩

theorem test_witness_ReceiverReadsByteTrace :
    (initItems 0).all ByteEvent.proper = true ∧
    (Receiver.mk Lines.reset [] []).bits = [] ∧ (Receiver.mk Lines.reset [] []).lines.sclk = false := by decide

theorem test_witness_ByteTraceIsUnique :
    (initItems 0).all ByteEvent.proper = true ∧ (contrastItems 0).all ByteEvent.proper = true ∧
    expandAll (contrastItems 0x7F) = expandAll (contrastItems 0xFF) := by decide +kernel

/-- The state right after INIT 0 in the reset state meets both invariants' premises. -/
theorem test_witness_FlushAddressesInBasicSet :
    ({ readyState with trace := expandAll (initItems 0) } : State).Session ∧ readyState.stalled = false ∧
    readyState.ready = true := by
  refine ⟨fun _ => ⟨initItems 0, rfl, by decide, fun h => absurd h (by decide), fun _ => ?_⟩, by decide, by decide⟩
  have bias : ∀ b : BitVec 3, isFunctionSet (biasByte b) = false := by decide
  simp [initItems, deviceSet, deviceSetAfter, bias]
  decide

theorem test_witness_FormKeptByEveryStep :
    State.reset.Form ∧ ∃ t, step State.reset = .next t :=
  ⟨⟨by decide, by decide, by decide, by decide, by decide, by decide⟩, _, rfl⟩

theorem test_witness_SessionKeptByEveryStep :
    State.reset.Session ∧ ∃ t, step State.reset = .next t :=
  ⟨fun _ => ⟨[], rfl, by decide, fun _ => rfl, fun h => absurd h (by decide)⟩, _, rfl⟩

/-- The step that serves an event, as a next state. -/
theorem test_witness_FramebufferWriters :
    (after (step (waiting (.write 0x1F7 1 0x80)))).map (fun t => decide (t.fb ≠ State.reset.fb)) = some true ∧
    isSerializer (.init 0) = true ∧ Instr.init 0 ≠ .flush ∧ (after (exec (.init 0) State.reset)).isSome = true ∧
    isSerializer .flush = true ∧ (after (exec .flush State.reset)).isSome = true := by decide +kernel

/-- Each register that changes, in one step that changes it. -/
theorem test_witness_RegisterWriters :
    (waiting (.write 0x200 1 0x20)).pending.head? ≠ some .blockReset ∧ State.reset.pending.head? ≠ some .blockReset ∧
    (after (step State.reset) = some State.reset ∧ State.reset.pending = []) ∧
    (after (step (waiting (.write 0x200 1 0x20)))).map (fun t => decide (t.result ≠ 0xFF)) = some true ∧
    cursorAfter (step { waiting (.write 0x200 1 0x22) with cursorX := 1 }) = some (0, 0) ∧
    (after (step (waiting (.write 0x200 1 0x23)))).map (fun t => (t.textSize, t.textColor)) = some (0, 0) ∧
    (after (step { waiting (.write 0x200 1 0x30) with contrast := 1 })).map (fun t => t.contrast) = some 0 ∧
    (after (step (waiting (.write 0x207 1 0x05)))).map (fun t => t.args.get 6) = some 0x05 ∧ 6 < 7 := by
  decide +kernel

/-- Each STATUS bit set, and each cleared, in one step. -/
theorem test_witness_StatusBitRules :
    statusAfter (step (waiting (.write 0x200 1 0x14))) = some 0x01 ∧
    statusAfter (step (waiting (.write 0x200 1 0x32))) = some 0x02 ∧
    statusAfter (step (waiting (.write 0x200 1 0x31))) = some 0x02 ∧
    statusAfter (step (waiting (.write 0x200 1 0x30))) = some 0x04 ∧
    statusAfter (step { waiting (.write 0x208 1 0x01) with status := 0x03 }) = some 0x02 ∧
    statusAfter (step { waiting (.write 0x208 1 0x02) with status := 0x03 }) = some 0x01 ∧
    statusAfter (step { waiting .blockReset with status := 0x07 }) = some 0x00 ∧
    (0x14 : Byte).toNat ∉ definedOpcodes ∧
    State.reset.pending.head? = none ∧ statusAfter (step State.reset) = some 0x00 := by decide +kernel

theorem test_witness_TraceIsAppendOnly :
    (waiting (.write 0x200 1 0x00)).pending.head? ≠ some .blockReset ∧
    (after (step (waiting (.write 0x200 1 0x00)))).isSome = true ∧
    (∀ v : Byte, (waiting (.read 0x000 1)).pending.head? ≠ some (.write 0x200 1 v)) ∧
    (∀ v : Byte, State.reset.pending.head? ≠ some (.write 0x200 1 v)) ∧ step State.reset = .next State.reset :=
  ⟨by decide, by decide, fun _ => nofun, fun _ => nofun, rfl⟩

theorem test_witness_NewlineParameterIsFixed :
    (∃ t, step State.reset = .next t) ∧ Instr.writeByte 0x0B ≠ .writeByte 0x0A ∧
    (∃ t, exec (.writeByte 0x0B) State.reset = .next t) := ⟨⟨_, rfl⟩, by decide, _, rfl⟩

theorem test_witness_ErrorBitsDoNotChangeCommands :
    (0x03 : Byte) &&& 0xFC = 0 ∧ ∃ t, exec .clear State.reset = .next t := ⟨by decide, _, rfl⟩

theorem test_witness_SilentCommandsNeedNoAgent :
    isSerializer (.drawTriangle 0 0 4 0 0 4 true) = false ∧ isSerializer (.writeByte 0) = false := by decide

theorem test_witness_CanonicalMemoryIsUnique :
    Memory.wf [(0, 0x00), (503, 0xFF)] = true ∧
    (∀ a : Nat, Memory.lookup a [(0, 0x00), (503, 0xFF)] = Memory.lookup a [(0, 0x00), (503, 0xFF)]) :=
  ⟨by decide, fun _ => rfl⟩

theorem test_witness_AssembledCommandIsExecuted :
    (Instr.setCursor 256 0).wellFormed = false ∧ (Instr.setCursor 255 255).wellFormed = true ∧
    assemble (.command (.setCursor 255 255)) = some (hostWrites (.setCursor 255 255)) ∧
    ∃ s : State, s.stalled = false ∧ s.pending = hostWrites (.setCursor 255 255) ++ [.blockReset] :=
  ⟨by decide, by decide, by decide +kernel,
    { State.reset with pending := hostWrites (.setCursor 255 255) ++ [.blockReset] }, rfl, rfl⟩

theorem test_witness_LoadBitmapRoundTrip :
    [0, 0].length ≠ 504 ∧ (List.replicate 504 255).length = 504 ∧ (∀ b ∈ List.replicate 504 255, b < 256) ∧
    503 < 504 ∧ 5 < 6 ∧ 83 < 84 ∧
    ∃ s : State, s.stalled = false ∧ s.pending = bitmapWrites 0 (List.replicate 504 255)
      ++ (List.range 504).map (fun k => .read (BitVec.ofNat 10 k) 1) ++ [.blockReset] :=
  ⟨by decide, List.length_replicate, fun b hb => by simp [List.eq_of_mem_replicate hb], by decide, by decide,
    by decide, { State.reset with pending := _ }, rfl, rfl⟩

theorem test_witness_WriteStringRunsItsCommands :
    255 < 256 ∧ (∀ b ∈ [0x41, 0x0A, 0x42, 0xFF], b < 256) ∧
    ∃ (evs : List HostEvent) (s : State), assemble (.writeString 255 255 [0x0A]) = some evs ∧
      s.stalled = false ∧ s.pending = evs ++ [.blockReset] :=
  ⟨by decide, by decide, _, { State.reset with pending := _ ++ [.blockReset] }, rfl, rfl, rfl⟩

theorem test_witness_ReadPixelAndClearStatus :
    (84 ≤ 84 ∨ 48 ≤ 0) ∧ (84 ≤ 0 ∨ 48 ≤ 48) ∧ 83 < 84 ∧ 47 < 48 ∧
    (waiting (.read 0x1F7 1)).stalled = false ∧ (waiting (.read 0x1F7 1)).pending = [.read 0x1F7 1] ∧
    (waiting (.write 0x208 1 0x03)).pending = [.write 0x208 1 0x03] := by decide

end Sys2Proof.Tests
end

section
/-! What one step can do, by the host event it serves; which commands write which part of the state; and the statements of
10_state.md that follow (rules R18 to R27, R31, R34, R35). -/

namespace Sys2Proof.Machine

/-! ## The opcode of a decoded word -/

theorem wordByte_zero_of_decodeWord {w : BitVec 64} {i : Instr} (h : decodeWord w = .ok i) :
    wordByte w 0 = i.opcode := by
  unfold decodeWord at h
  split at h <;> cases h <;> exact BitVec.eq_of_toNat_eq ‹(wordByte w 0).toNat = _›

theorem not_mem_definedOpcodes_of_decodeWord {w : BitVec 64} {r : Reject}
    (h : decodeWord w = .error r) : (wordByte w 0).toNat ∉ definedOpcodes := by
  unfold decodeWord at h
  split at h <;> cases h <;> simp_all [definedOpcodes]

theorem opcode_mem_definedOpcodes (i : Instr) : i.opcode.toNat ∈ definedOpcodes := by
  cases i <;> simp [Instr.opcode, definedOpcodes]

/-! ## What serving a host event can do -/

/-- The cases of `serve`: the event served, and the state it leaves. -/
inductive Served (s : State) : HostEvent → State → Prop where
  | read (a : HostAddr) : Served s (.read a 1) { s with readLog := s.readLog ++ [hostRead a s] }
  | cell (a : HostAddr) (v : Byte) (ha : a.toNat ≤ 0x1F7) :
      Served s (.write a 1 v) { s with fb := s.fb.write a.toNat v }
  | command (i : Instr) (t : State) (h : exec i s = .next t) : Served s (.write 0x200 1 i.opcode) t
  | undefined (v : Byte) (hv : v.toNat ∉ definedOpcodes) :
      Served s (.write 0x200 1 v) (raise .illegalCommand s)
  | arg (a : HostAddr) (k : Nat) (v : Byte) (hk : k < 7) (ha : a.toNat = 0x201 + k) :
      Served s (.write a 1 v) (storeArg k v s)
  | status (v : Byte) : Served s (.write 0x208 1 v) { s with status := statusW1C s.status v }
  | unused (a : HostAddr) (v : Byte) (hlo : 504 ≤ a.toNat) (ha : a.toNat < 0x200 ∨ 0x208 < a.toNat) :
      Served s (.write a 1 v) s
  | blockReset : Served s .blockReset (blockReset s)

theorem served_of_issue {v : Byte} {s t : State} (h : issue v s = .next t) :
    Served s (.write 0x200 1 v) t := by
  rcases issue_cases h with ⟨i, hi, h⟩ | ⟨r, hr, rfl⟩
  · have hv : v = i.opcode := by simpa using wordByte_zero_of_decodeWord hi
    exact hv ▸ .command i t h
  · exact .undefined v (by simpa using not_mem_definedOpcodes_of_decodeWord hr)

theorem served_of_hostWrite {a : HostAddr} {v : Byte} {s t : State} (h : hostWrite a v s = .next t) :
    Served s (.write a 1 v) t := by
  rcases hostWrite_cases h with ⟨ha, rfl⟩ | ⟨ha, h⟩ | ⟨k, hk, ha, rfl⟩ | ⟨ha, rfl⟩ | ⟨hlo, ha, rfl⟩
  · exact .cell a v (by omega)
  · obtain rfl : a = 0x200 := BitVec.eq_of_toNat_eq ha
    exact served_of_issue h
  · exact .arg a k v hk ha
  · obtain rfl : a = 0x208 := BitVec.eq_of_toNat_eq ha
    exact .status v
  · exact .unused a v hlo ha

theorem served_of_serve {e : HostEvent} {s t : State} (h : serve e s = .next t) : Served s e t := by
  rcases serve_cases h with ⟨a, rfl, rfl⟩ | ⟨a, v, rfl, h⟩ | ⟨rfl, rfl⟩
  · exact .read a
  · exact served_of_hostWrite h
  · exact .blockReset

/-- A step is idle, or it takes the next host event off the list and serves it. -/
theorem served_of_step {s t : State} (h : step s = .next t) :
    (s.pending = [] ∧ t = s) ∨
      ∃ e rest, s.pending = e :: rest ∧ Served { s with pending := rest } e t := by
  rcases step_cases h with ⟨-, hp, rfl⟩ | ⟨e, rest, hp, -, h⟩
  · exact .inl ⟨hp, rfl⟩
  · exact .inr ⟨e, rest, hp, served_of_serve h⟩

/-! ## Which commands write which part of the state -/

/-- The writers of R18, R21 and R23 to R29: each part that differs from `s` to `t` is one that the command with opcode `op`
writes. -/
structure WrittenBy (op : Byte) (s t : State) : Prop where
  fb : t.fb ≠ s.fb → op.toNat ∈ drawingOpcodes
  args : t.args = s.args
  result : t.result ≠ s.result → op = 0x20
  cursor : t.cursorX ≠ s.cursorX ∨ t.cursorY ≠ s.cursorY → op = 0x01 ∨ op = 0x21 ∨ op = 0x22
  textAttr : t.textSize ≠ s.textSize ∨ t.textColor ≠ s.textColor → op = 0x23
  contrast : t.contrast ≠ s.contrast → op = 0x30 ∨ op = 0x31
  lines : t.lines ≠ s.lines → op = 0x30 ∨ op = 0x31 ∨ op = 0x32

theorem WrittenBy.refl (op : Byte) (s : State) : WrittenBy op s s := by
  constructor <;> simp

theorem WrittenBy.of_fb {op : Byte} (hop : op.toNat ∈ drawingOpcodes) (s : State) (fb : Framebuffer) :
    WrittenBy op s { s with fb := fb } := by
  constructor <;> simp [hop]

theorem writtenBy_of_execWriteByte {b : Nat} {s t : State} (h : execWriteByte b s = .next t) :
    WrittenBy 0x21 s t := by
  rw [← Host.Outcome.next.inj h]
  unfold writeByte
  split
  · constructor <;> simp
  · split
    · exact .refl _ _
    · constructor <;> simp [drawingOpcodes]

theorem writtenBy_of_execInit {c : Nat} {s t : State} (h : execInit c s = .next t) :
    WrittenBy 0x30 s t := by
  obtain ⟨es, -, ⟨-, rfl⟩ | ⟨-, rfl⟩⟩ := execInit_cases h <;> constructor <;> simp

theorem writtenBy_of_execSetContrast {c : Nat} {s t : State} (h : execSetContrast c s = .next t) :
    WrittenBy 0x31 s t := by
  obtain ⟨-, rfl⟩ | ⟨-, es, -, ⟨-, rfl⟩ | ⟨-, rfl⟩⟩ := execSetContrast_cases h <;> constructor <;> simp

theorem writtenBy_of_execFlush {s t : State} (h : execFlush s = .next t) : WrittenBy 0x32 s t := by
  obtain ⟨-, rfl⟩ | ⟨-, es, -, ⟨-, rfl⟩ | ⟨-, rfl⟩⟩ := execFlush_cases h <;> constructor <;> simp

/-- Every command writes only what the state chapter gives it. -/
theorem exec_writtenBy {i : Instr} {s t : State} (h : exec i s = .next t) :
    WrittenBy i.opcode s t := by
  cases i with
  | nop => rw [← Host.Outcome.next.inj h]; exact .refl _ _
  | clear => rw [← Host.Outcome.next.inj h]; constructor <;> simp [Instr.opcode, drawingOpcodes]
  | setPixel x y on => rw [← Host.Outcome.next.inj h]; exact .of_fb (by simp [Instr.opcode, drawingOpcodes]) _ _
  | drawLine x0 y0 x1 y1 c => rw [← Host.Outcome.next.inj h]; exact .of_fb (by simp [Instr.opcode, drawingOpcodes]) _ _
  | drawHline x y w c =>
    simp only [exec, execDrawHline] at h
    split at h <;> rw [← Host.Outcome.next.inj h]
    · exact .refl _ _
    · exact .of_fb (by simp [Instr.opcode, drawingOpcodes]) _ _
  | drawVline x y w c =>
    simp only [exec, execDrawVline] at h
    split at h <;> rw [← Host.Outcome.next.inj h]
    · exact .refl _ _
    · exact .of_fb (by simp [Instr.opcode, drawingOpcodes]) _ _
  | drawTriangle x1 y1 x2 y2 x3 y3 c =>
    rw [← Host.Outcome.next.inj h]; exact .of_fb (by simp [Instr.opcode, drawingOpcodes]) _ _
  | drawChar x y code =>
    rw [← Host.Outcome.next.inj h]; constructor <;> simp [Instr.opcode, drawingOpcodes]
  | writeByte b => exact writtenBy_of_execWriteByte h
  | setCursor x y => rw [← Host.Outcome.next.inj h]; constructor <;> simp [Instr.opcode]
  | setTextAttr size color => rw [← Host.Outcome.next.inj h]; constructor <;> simp [Instr.opcode]
  | init c => exact writtenBy_of_execInit h
  | setContrast c => exact writtenBy_of_execSetContrast h
  | flush => exact writtenBy_of_execFlush h

/-! ## The serializer and the framebuffer -/

theorem exec_fb_of_isSerializer {i : Instr} {s t : State} (hi : isSerializer i = true)
    (h : exec i s = .next t) : t.fb = s.fb := by
  cases i with
  | init c => exact execInit_fb h
  | setContrast c => exact execSetContrast_fb h
  | flush => exact execFlush_fb h
  | _ => cases hi

/-- Emitting a list that is fixed beforehand does the same whatever the cells hold, if the rest of the command does. -/
theorem emitThen_with_fb {items : List ByteEvent} {rest : State → State} {s t : State}
    (fb : Framebuffer) (hrest : ∀ u : State, rest { u with fb := fb } = { rest u with fb := fb })
    (h : emitThen items rest s = .next t) :
    emitThen items rest { s with fb := fb } = .next { t with fb := fb } := by
  rcases emitThen_cases h with ⟨ha, rfl⟩ | ⟨ha, rfl⟩
  · rw [← hrest (s.accept (expandAll items))]
    exact emitThen_of_accepts ha
  · exact emitThen_of_not_accepts ha

theorem whenReady_with_fb {run : State → Result} {s t : State} (fb : Framebuffer)
    (hrun : run s = .next t → run { s with fb := fb } = .next { t with fb := fb })
    (h : whenReady run s = .next t) :
    whenReady run { s with fb := fb } = .next { t with fb := fb } := by
  rcases whenReady_cases h with ⟨hr, h⟩ | ⟨hr, rfl⟩
  · exact (if_pos hr).trans (hrun h)
  · exact if_neg (by simpa [State.ready] using hr)

theorem exec_with_fb {i : Instr} {s t : State} (fb : Framebuffer) (hi : isSerializer i = true)
    (hf : i ≠ .flush) (h : exec i s = .next t) :
    exec i { s with fb := fb } = .next { t with fb := fb } := by
  cases i with
  | init c =>
    exact emitThen_with_fb (rest := fun t => becomeReady (storeContrast c t)) fb (fun _ => rfl) h
  | setContrast c => exact whenReady_with_fb fb (emitThen_with_fb fb fun _ => rfl) h
  | flush => exact absurd rfl hf
  | _ => cases hi

/-! ## STATUS -/

/-- The value that serving `e`, or idling, can leave in a STATUS register that holds `v` (R20): the rule of each bit is read
off these cases. -/
inductive StatusAfter (v : Byte) : Option HostEvent → Byte → Prop where
  | kept (e : Option HostEvent) (hreset : e ≠ some .blockReset)
      (hdef : ∀ w : Byte, e = some (.write 0x200 1 w) → w.toNat ∈ definedOpcodes)
      (hready : e = some (.write 0x200 1 0x31) ∨ e = some (.write 0x200 1 0x32) → v.getLsbD 2 = true) :
      StatusAfter v e v
  | illegal (w : Byte) (hw : w.toNat ∉ definedOpcodes) :
      StatusAfter v (some (.write 0x200 1 w)) (v ||| 0x01)
  | notReady (w : Byte) (hw : w = 0x31 ∨ w = 0x32) (hready : v.getLsbD 2 = false) :
      StatusAfter v (some (.write 0x200 1 w)) (v ||| 0x02)
  | ready : StatusAfter v (some (.write 0x200 1 0x30)) (v ||| 0x04)
  | w1c (w : Byte) : StatusAfter v (some (.write 0x208 1 w)) (statusW1C v w)
  | blockReset : StatusAfter v (some .blockReset) 0x00

/-- A command that raises no error and does not complete INIT keeps STATUS. -/
theorem StatusAfter.of_command (i : Instr) {v : Byte}
    (hready : i.opcode = 0x31 ∨ i.opcode = 0x32 → v.getLsbD 2 = true) :
    StatusAfter v (some (.write 0x200 1 i.opcode)) v := by
  refine .kept _ (by simp) ?_ (by simpa using hready)
  rintro w ⟨⟩
  exact opcode_mem_definedOpcodes i

/-- An event that is neither a block reset nor a write to CMD can keep STATUS. -/
theorem StatusAfter.of_ne_cmd {e : HostEvent} {v : Byte} (hreset : e ≠ .blockReset)
    (hcmd : ∀ w, e ≠ .write 0x200 1 w) : StatusAfter v (some e) v := by
  refine .kept _ (by simpa using hreset) ?_ ?_
  · rintro w ⟨⟩
    exact absurd rfl (hcmd w)
  · rintro (⟨⟨⟩⟩ | ⟨⟨⟩⟩) <;> exact absurd rfl (hcmd _)

theorem statusAfter_of_exec {i : Instr} {s t : State} (h : exec i s = .next t) :
    StatusAfter s.status (some (.write 0x200 1 i.opcode)) t.status := by
  cases i with
  | init c =>
    obtain ⟨es, -, ⟨-, rfl⟩ | ⟨-, rfl⟩⟩ := execInit_cases h
    · exact .ready
    · exact .of_command (.init c) (by simp [Instr.opcode])
  | setContrast c =>
    obtain ⟨hr, rfl⟩ | ⟨hr, es, -, ⟨-, rfl⟩ | ⟨-, rfl⟩⟩ := execSetContrast_cases h
    · exact .notReady 0x31 (.inl rfl) hr
    · exact .of_command (.setContrast c) fun _ => hr
    · exact .of_command (.setContrast c) fun _ => hr
  | flush =>
    obtain ⟨hr, rfl⟩ | ⟨hr, es, -, ⟨-, rfl⟩ | ⟨-, rfl⟩⟩ := execFlush_cases h
    · exact .notReady 0x32 (.inr rfl) hr
    · exact .of_command .flush fun _ => hr
    · exact .of_command .flush fun _ => hr
  | _ =>
    rw [exec_frame_of_silent (by simp) (by simp) (by simp) h]
    exact .of_command _ (by simp [Instr.opcode])

theorem Served.statusAfter {e : HostEvent} {s t : State} (h : Served s e t) :
    StatusAfter s.status (some e) t.status := by
  cases h with
  | read a => exact .of_ne_cmd (by simp) (by simp)
  | cell a v ha => exact .of_ne_cmd (by simp) (by rintro v ⟨⟩; simp at ha)
  | command i t h => exact statusAfter_of_exec h
  | undefined v hv => exact .illegal v hv
  | arg a k v hk ha => exact .of_ne_cmd (by simp) (by rintro v ⟨⟩; simp at ha; omega)
  | status v => exact .w1c v
  | unused a v hlo ha => exact .of_ne_cmd (by simp) (by rintro v ⟨⟩; simp at ha)
  | blockReset => exact .blockReset

theorem statusAfter_of_step {s t : State} (h : step s = .next t) :
    StatusAfter s.status s.pending.head? t.status := by
  rcases served_of_step h with ⟨hp, rfl⟩ | ⟨e, rest, hp, hs⟩
  · rw [hp]
    exact .kept _ (by simp) (by simp) (by simp)
  · rw [hp]
    exact hs.statusAfter

/-- Bits 7:3 stay 0 (R20). -/
theorem StatusAfter.reserved {v w : Byte} {e : Option HostEvent} (h : StatusAfter v e w)
    (hv : v &&& 0xF8 = 0) : w &&& 0xF8 = 0 := by
  cases h with
  | kept => exact hv
  | illegal | notReady | ready => revert v; decide
  | w1c u =>
    rw [statusW1C, BitVec.and_assoc, BitVec.and_comm _ 0xF8, ← BitVec.and_assoc, hv]
    exact BitVec.zero_and
  | blockReset => rfl

section

variable {v w : Byte} {e : Option HostEvent} (h : StatusAfter v e w)
include h

theorem StatusAfter.illegal_set (hv : v.getLsbD 0 = false) (hw : w.getLsbD 0 = true) :
    ∃ u : Byte, u.toNat ∉ definedOpcodes ∧ e = some (.write 0x200 1 u) := by
  cases h with
  | illegal u hu => exact ⟨u, hu, rfl⟩
  | _ => simp_all [statusW1C]

theorem StatusAfter.notReady_set (hv : v.getLsbD 1 = false) (hw : w.getLsbD 1 = true) :
    v.getLsbD 2 = false ∧ (e = some (.write 0x200 1 0x31) ∨ e = some (.write 0x200 1 0x32)) := by
  cases h with
  | notReady u hu hready => exact ⟨hready, by simpa using hu⟩
  | _ => simp_all [statusW1C]

theorem StatusAfter.ready_set (hv : v.getLsbD 2 = false) (hw : w.getLsbD 2 = true) :
    e = some (.write 0x200 1 0x30) := by
  cases h with
  | ready => rfl
  | _ => simp_all [statusW1C]

theorem StatusAfter.illegal_clear (hv : v.getLsbD 0 = true) (hw : w.getLsbD 0 = false) :
    e = some .blockReset ∨ ∃ u : Byte, u.getLsbD 0 = true ∧ e = some (.write 0x208 1 u) := by
  cases h with
  | w1c u => exact .inr ⟨u, by simpa [statusW1C, hv] using hw, rfl⟩
  | blockReset => exact .inl rfl
  | _ => simp_all

theorem StatusAfter.notReady_clear (hv : v.getLsbD 1 = true) (hw : w.getLsbD 1 = false) :
    e = some .blockReset ∨ ∃ u : Byte, u.getLsbD 1 = true ∧ e = some (.write 0x208 1 u) := by
  cases h with
  | w1c u => exact .inr ⟨u, by simpa [statusW1C, hv] using hw, rfl⟩
  | blockReset => exact .inl rfl
  | _ => simp_all

theorem StatusAfter.ready_clear (hv : v.getLsbD 2 = true) (hw : w.getLsbD 2 = false) :
    e = some .blockReset := by
  cases h with
  | blockReset => rfl
  | _ => simp_all [statusW1C]

theorem StatusAfter.illegal_of_undefined {u : Byte} (hu : u.toNat ∉ definedOpcodes)
    (he : e = some (.write 0x200 1 u)) : w.getLsbD 0 = true := by
  subst he
  cases h with
  | kept _ _ hdef => exact absurd (hdef u rfl) hu
  | illegal => simp
  | notReady _ hn => rcases hn with rfl | rfl <;> simp [definedOpcodes] at hu
  | ready => simp [definedOpcodes] at hu

theorem StatusAfter.notReady_of_not_ready (hv : v.getLsbD 2 = false)
    (he : e = some (.write 0x200 1 0x31) ∨ e = some (.write 0x200 1 0x32)) : w.getLsbD 1 = true := by
  cases h with
  | kept _ _ _ hready => rw [hready he] at hv; cases hv
  | illegal u hu => rcases he with ⟨⟨⟩⟩ | ⟨⟨⟩⟩ <;> simp [definedOpcodes] at hu
  | notReady => simp
  | _ => simp at he

theorem StatusAfter.eq_zero_of_blockReset (he : e = some .blockReset) : w = 0x00 := by
  subst he
  cases h with
  | kept _ hreset => exact absurd rfl hreset
  | blockReset => rfl

end

/-! ## The font -/

theorem font_isSome_iff (code : Nat) : (font code).isSome = true ↔ 0x20 ≤ code ∧ code ≤ 0xB3 := by
  unfold font
  split <;> simp_all

/-! ## The statements -/

/-- Settles O13: the fields of State.reset, read off. -/
theorem resetRegisterValues : Obligations.ResetRegisterValues := by
  unfold Obligations.ResetRegisterValues
  decide

/-- Settles O27: the domain is `font`'s guard, and the glyph of 0x41 is computed. -/
theorem fontDomainAndKnownGlyph : Obligations.FontDomainAndKnownGlyph :=
  ⟨font_isSome_iff, rfl⟩

/-- Settles O14: of all events but a block reset, only a write of one of the serializer's opcodes to CMD moves a line. -/
theorem resetLineLevels : Obligations.ResetLineLevels := by
  refine ⟨fun s t hreset h hl => ?_, by decide⟩
  rcases served_of_step h with ⟨-, rfl⟩ | ⟨e, rest, hp, hs⟩
  · exact absurd rfl hl
  · rw [hp] at hreset ⊢
    cases hs with
    | command i _ h => simpa using (exec_writtenBy h).lines hl
    | blockReset => exact absurd rfl hreset
    | _ => exact absurd rfl hl

/-- Settles O45: by the cases of a step for the writers, and by the emitting commands' own cases for the rest. -/
theorem framebufferWriters : Obligations.FramebufferWriters := by
  refine ⟨fun s t h hfb => ?_, fun i s t => exec_fb_of_isSerializer, fun i s t => exec_with_fb⟩
  rcases served_of_step h with ⟨-, rfl⟩ | ⟨e, rest, hp, hs⟩
  · exact absurd rfl hfb
  · refine ⟨e, rest, hp, ?_⟩
    cases hs with
    | cell a v ha => exact .inr (.inl ⟨a, v, ha, rfl⟩)
    | command i _ h => exact .inr (.inr ⟨i.opcode, (exec_writtenBy h).fb hfb, rfl⟩)
    | blockReset => exact .inl rfl
    | _ => exact absurd rfl hfb

/-- Settles O46: by the cases of a step; a served command writes only what its opcode may. -/
theorem registerWriters : Obligations.RegisterWriters := by
  intro s t hreset h
  refine ⟨fun hp => eq_of_step_idle hp h, ?_⟩
  rcases served_of_step h with ⟨-, rfl⟩ | ⟨e, rest, hp, hs⟩
  · simp
  · rw [hp] at hreset ⊢
    cases hs with
    | command i _ h =>
      obtain ⟨-, hargs, hresult, hcursor, htext, hcontrast, -⟩ := exec_writtenBy h
      simp_all
    | arg a k v hk ha =>
      refine ⟨by simp, by simp, by simp, by simp, fun j _ hj => ?_⟩
      have : j = k := by
        by_contra hne
        simp [Args.get_set, hk, hne] at hj
      exact ⟨a, v, this ▸ ha, rfl⟩
    | blockReset => exact absurd rfl hreset
    | _ => simp

/-- Settles O47: each bit's rule, read off the values that a step can leave in STATUS. -/
theorem statusBitRules : Obligations.StatusBitRules := by
  rintro s t e rfl h
  have hst := statusAfter_of_step h
  refine ⟨hst.illegal_set, hst.notReady_set, hst.ready_set, hst.illegal_clear, hst.notReady_clear,
    hst.ready_clear, fun u => hst.illegal_of_undefined, hst.notReady_of_not_ready, fun he => ?_,
    fun hv => ⟨hst.reserved hv, hv⟩⟩
  simp [State.illegal, State.notReady, State.ready, hst.eq_zero_of_blockReset he]

end Sys2Proof.Machine
end

section
/-! What a one-byte read returns and what a one-byte write does at each address of the map, runs of accesses through the
aperture, and the statements of 20_memory.md (rules R38, R41 to R44, R65). -/

namespace Sys2Proof.Machine

/-! ## Reads, by address -/

theorem hostRead_aperture {a : HostAddr} (ha : a.toNat < 504) (s : State) :
    hostRead a s = s.fb.read a.toNat := if_pos ha

theorem hostRead_arg {a : HostAddr} {k : Nat} (hk : k < 7) (ha : a.toNat = 0x201 + k) (s : State) :
    hostRead a s = s.args.get k := by
  simp only [hostRead, ha]
  interval_cases k <;> rfl

/-- CMD and the reserved addresses read 0x00 (R43). -/
theorem hostRead_unused {a : HostAddr} (hlo : 504 ≤ a.toNat) (ha : a.toNat ≤ 0x200 ∨ 0x210 ≤ a.toNat)
    (s : State) : hostRead a s = 0x00 := by
  simp only [hostRead, Config.cells, if_neg (Nat.not_lt.2 hlo)]
  split
  case h_16 => rfl
  all_goals omega

/-- The LINES register holds the six lines in bits 0 to 5 (R17). -/
theorem Lines.getLsbD_toByte (l : Lines) {j : Nat} (hj : j < 8) :
    l.toByte.getLsbD j = [l.sdin, l.sclk, l.dc, l.sce, l.rst, l.bl].getD j false := by
  simp only [Lines.toByte, BitVec.getLsbD_append]
  interval_cases j <;> simp

/-! ## Writes, by address -/

/-- A one-byte write is always served: only `issue` runs a command, and every command answers a next state. -/
theorem hostWrite_next (a : HostAddr) (v : Byte) (s : State) : ∃ t, hostWrite a v s = .next t := by
  by_cases ha : a = 0x200
  · rw [ha, hostWrite_cmd]
    unfold issue
    split
    · exact exec_next _ _
    · exact ⟨_, rfl⟩
  · have hne : a.toNat ≠ 0x200 := fun h => ha (BitVec.eq_of_toNat_eq h)
    unfold hostWrite
    split
    · exact ⟨_, rfl⟩
    · split
      · exact absurd ‹_› hne
      all_goals exact ⟨_, rfl⟩

theorem hostWrite_aperture {a : HostAddr} (ha : a.toNat < 504) (v : Byte) (s : State) :
    hostWrite a v s = .next { s with fb := s.fb.write a.toNat v } := if_pos ha

theorem hostWrite_arg {a : HostAddr} {k : Nat} (hk : k < 7) (ha : a.toNat = 0x201 + k) (v : Byte)
    (s : State) : hostWrite a v s = .next (storeArg k v s) := by
  simp only [hostWrite, ha]
  interval_cases k <;> rfl

theorem hostWrite_status (v : Byte) (s : State) :
    hostWrite 0x208 v s = .next { s with status := statusW1C s.status v } := rfl

/-- Writes to reserved addresses and to RO registers are ignored (R43). -/
theorem hostWrite_unused {a : HostAddr} (hlo : 504 ≤ a.toNat) (ha : a.toNat < 0x200 ∨ 0x208 < a.toNat)
    (v : Byte) (s : State) : hostWrite a v s = .next s := by
  obtain ⟨t, h⟩ := hostWrite_next a v s
  rcases hostWrite_cases h with ⟨h1, -⟩ | ⟨h1, -⟩ | ⟨k, hk, h1, -⟩ | ⟨h1, -⟩ | ⟨-, -, rfl⟩
  · omega
  · omega
  · omega
  · omega
  · exact h

/-- Storing through the aperture changes the one cell that the address names (R41). -/
theorem Framebuffer.cell_write (fb : Framebuffer) (a : Nat) (v : Byte) {p c : Nat} (hc : c < 84) :
    (fb.write a v).cell p c = if p = a / 84 ∧ c = a % 84 then v else fb.cell p c := by
  have h := fb.cell_setCell (p := p) (q := a / 84) v hc (Nat.mod_lt a (by decide))
  rwa [Framebuffer.setCell, cellIndex_div_mod] at h

/-- Each STATUS bit after a host write: bits 1:0 are cleared where the byte holds 1, the others stay (R17, R43). -/
theorem getLsbD_statusW1C (w v : Byte) (j : Nat) :
    (statusW1C w v).getLsbD j = (w.getLsbD j && !(decide (j < 2) && v.getLsbD j)) := by
  by_cases hj : j < 8
  · interval_cases j <;> simp [statusW1C]
  · simp [BitVec.getLsbD_of_ge _ j (Nat.not_lt.1 hj)]

/-! ## Writes done again -/

theorem Memory.write_write (a : Nat) (v : Byte) (m : Memory) :
    Memory.write a v (Memory.write a v m) = Memory.write a v m := by
  induction m with
  | nil => simp [Memory.write]
  | cons e m ih =>
    obtain ⟨b, u⟩ := e
    simp only [Memory.write]
    split_ifs with hlt heq
    · simp [Memory.write]
    · simp [Memory.write]
    · simp [Memory.write, hlt, heq, ih]

theorem Framebuffer.write_write (fb : Framebuffer) (i : Nat) (v : Byte) :
    (fb.write i v).write i v = fb.write i v := by
  simp [Framebuffer.write, Memory.write_write]

theorem Args.set_set (a : Args) {k : Nat} (hk : k < 7) (v : Byte) : (a.set k v).set k v = a.set k v := by
  apply Args.ext_get
  intro j _
  simp only [Args.get_set _ _ _ _ hk]
  split <;> rfl

theorem storeArg_storeArg {k : Nat} (hk : k < 7) (v : Byte) (s : State) :
    storeArg k v (storeArg k v s) = storeArg k v s := by
  simp [storeArg, Args.set_set _ hk]

theorem statusW1C_statusW1C (w v : Byte) : statusW1C (statusW1C w v) v = statusW1C w v := by
  simp [statusW1C, BitVec.and_assoc]

/-- A write to any address but CMD, done again, has no further effect (R44). -/
theorem hostWrite_again {a : HostAddr} {v : Byte} {s t : State} (ha : a.toNat ≠ 0x200)
    (h : hostWrite a v s = .next t) : hostWrite a v t = .next t := by
  rcases hostWrite_cases h with ⟨hlt, rfl⟩ | ⟨hcmd, -⟩ | ⟨k, hk, hak, rfl⟩ | ⟨hst, rfl⟩ | ⟨-, -, rfl⟩
  · rw [hostWrite_aperture hlt, Framebuffer.write_write]
  · exact absurd hcmd ha
  · rw [hostWrite_arg hk hak, storeArg_storeArg hk]
  · obtain rfl : a = 0x208 := BitVec.eq_of_toNat_eq hst
    rw [hostWrite_status, statusW1C_statusW1C]
  · exact h

/-! ## Steps of one access -/

section

variable {s : State} {a : HostAddr} {rest : List HostEvent} (hs : s.stalled = false)
include hs

theorem step_read (hp : s.pending = .read a 1 :: rest) :
    step s = .next { s with pending := rest, readLog := s.readLog ++ [hostRead a s] } := by
  rw [step_of_pending hs hp]
  rfl

theorem step_write {v : Byte} (hp : s.pending = .write a 1 v :: rest) :
    step s = hostWrite a v { s with pending := rest } := step_of_pending hs hp

end

/-! ## Runs of accesses through the aperture -/

theorem stepMany_succ {s t : State} (h : step s = .next t) (n : Nat) :
    stepMany (n + 1) s = stepMany n t := by
  rw [stepMany, h]

theorem stepMany_add {m n : Nat} {s t u : State} (h : stepMany m s = .next t)
    (hu : stepMany n t = .next u) : stepMany (m + n) s = .next u := by
  induction m generalizing s with
  | zero => rw [Nat.zero_add, ← hu, Host.Outcome.next.inj h]
  | succ m ih =>
    rw [stepMany] at h
    split at h
    · rw [Nat.add_right_comm, stepMany_succ ‹_›, ih h]
    · cases h
    · cases h

/-- The framebuffer with operand bytes stored into consecutive cells, from flat index `k` on: what a run of LOAD_BITMAP's
writes leaves (`stepMany_bitmapWrites`). -/
def Framebuffer.storeFrom (fb : Framebuffer) (k : Nat) : List Nat → Framebuffer
  | [] => fb
  | b :: bs => (fb.write k (operandByte b)).storeFrom (k + 1) bs

theorem Framebuffer.read_storeFrom (fb : Framebuffer) (k : Nat) (bs : List Nat) (i : Nat) :
    (fb.storeFrom k bs).read i
      = if k ≤ i ∧ i < k + bs.length then operandByte (bs.getD (i - k) 0) else fb.read i := by
  induction bs generalizing fb k with
  | nil => rw [storeFrom, if_neg (by simp)]
  | cons b bs ih =>
    rw [storeFrom, ih, Framebuffer.read_write, List.length_cons]
    by_cases hi : i = k
    · simp [hi]
    · by_cases hlt : k + 1 ≤ i ∧ i < k + 1 + bs.length
      · obtain ⟨d, rfl⟩ := Nat.exists_eq_add_of_le hlt.1
        rw [if_pos hlt, if_pos (by omega), show k + 1 + d - k = d + 1 by omega, Nat.add_sub_cancel_left,
          List.getD_cons_succ]
      · rw [if_neg hlt, if_neg hi, if_neg (by omega)]

theorem stepMany_bitmapWrites {bs : List Nat} {k : Nat} {s : State} {rest : List HostEvent}
    (hs : s.stalled = false) (hk : k + bs.length ≤ 504) (hp : s.pending = bitmapWrites k bs ++ rest) :
    stepMany bs.length s = .next { s with fb := s.fb.storeFrom k bs, pending := rest } := by
  induction bs generalizing k s with
  | nil =>
    obtain rfl : s.pending = rest := hp
    rfl
  | cons b bs ih =>
    rw [List.length_cons] at hk ⊢
    have ha : (BitVec.ofNat 10 k).toNat = k := by
      rw [BitVec.toNat_ofNat, Nat.mod_eq_of_lt (by omega)]
    have hstep := step_write hs hp
    rw [hostWrite_aperture (by omega), ha] at hstep
    rw [stepMany_succ hstep]
    exact ih hs (by omega) rfl

/-- The write at place `k` of LOAD_BITMAP's expansion stores byte `k` at flat index `k` (R65). -/
theorem getElem?_bitmapWrites {bs : List Nat} {k j : Nat} (hj : j < bs.length) :
    (bitmapWrites k bs)[j]? = some (.write (BitVec.ofNat 10 (k + j)) 1 (operandByte (bs.getD j 0))) := by
  induction bs generalizing k j with
  | nil => cases hj
  | cons b bs ih =>
    cases j with
    | zero => rfl
    | succ j =>
      rw [bitmapWrites, List.getElem?_cons_succ, ih (Nat.lt_of_succ_lt_succ hj), List.getD_cons_succ,
        Nat.add_right_comm, Nat.add_assoc]

/-- A run of reads returns what each of them reads at its start: no read changes what another returns (R44). -/
theorem stepMany_reads (addr : Nat → HostAddr) {ks : List Nat} {s : State} {rest : List HostEvent}
    (hs : s.stalled = false) (hp : s.pending = ks.map (fun k => .read (addr k) 1) ++ rest) :
    stepMany ks.length s
      = .next { s with pending := rest, readLog := s.readLog ++ ks.map fun k => hostRead (addr k) s } := by
  induction ks generalizing s with
  | nil =>
    obtain rfl : s.pending = rest := hp
    simp [stepMany]
  | cons k ks ih =>
    rw [List.length_cons, stepMany_succ (step_read hs hp)]
    refine Eq.trans (ih hs rfl) ?_
    rw [List.append_assoc]
    rfl

theorem assemble_loadBitmap {bytes : List Nat} (hlen : bytes.length = 504) (hb : ∀ b ∈ bytes, b < 256) :
    assemble (.loadBitmap bytes) = some (bitmapWrites 0 bytes) :=
  if_pos ⟨hlen, by simpa [isByte] using hb⟩

/-- 504 reads in address order return the 504 bytes stored from address 0 on (R72). -/
theorem map_hostRead_storeFrom {bytes : List Nat} (hlen : bytes.length = 504) {s : State}
    {fb : Framebuffer} (hfb : s.fb = fb.storeFrom 0 bytes) :
    (List.range 504).map (fun k => hostRead (BitVec.ofNat 10 k) s) = bytes.map (BitVec.ofNat 8) := by
  apply List.ext_getElem (by simp [hlen])
  intro i h1 h2
  rw [List.length_map] at h2
  have ha : (BitVec.ofNat 10 i).toNat = i := by
    rw [BitVec.toNat_ofNat, Nat.mod_eq_of_lt (by omega)]
  simp only [List.getElem_map, List.getElem_range]
  rw [hostRead_aperture (by omega), ha, hfb, Framebuffer.read_storeFrom, if_pos (by omega), Nat.sub_zero,
    ← List.getElem_eq_getD 0 (h := h2)]
  rfl

/-! ## The statements -/

/-- Settles O9: the address is the flat index of the one cell that the write stores. -/
theorem apertureWriteSetsOneCell : Obligations.ApertureWriteSetsOneCell := by
  intro s a v rest hs ha hp
  exact ⟨_, (step_write hs hp).trans (hostWrite_aperture (by omega) v _), rfl, rfl,
    fun p c _ hc => Framebuffer.cell_write _ _ _ hc⟩

/-- Settles O11: by the address, with what a read returns and what a write does there. -/
theorem registerAndReservedAccesses : Obligations.RegisterAndReservedAccesses := by
  intro s a v rest hs
  have haddr {n : Nat} (hn : a.toNat = n) : a = BitVec.ofNat 10 n := by
    rw [← hn, BitVec.ofNat_toNat, BitVec.setWidth_eq]
  have hreg {n : Nat} {b : Byte} (hn : a.toNat = n) (h : hostRead (BitVec.ofNat 10 n) s = b) :
      hostRead a s = b := haddr hn ▸ h
  refine ⟨fun hlo hp => ⟨hostRead a s, step_read hs hp, fun k hk ha => hostRead_arg hk ha s,
    fun ha => hreg ha rfl, fun ha => hreg ha rfl, fun ha => hreg ha rfl, fun ha => hreg ha rfl,
    fun ha => hreg ha rfl, fun ha => hreg ha rfl, fun ha => hreg ha rfl, fun ha j hj => ?_,
    fun ha => hostRead_unused hlo ha s⟩, fun hp => ?_⟩
  · rw [hreg (b := s.lines.toByte) ha rfl]
    exact s.lines.getLsbD_toByte hj
  · rw [step_write hs hp]
    refine ⟨fun ha => hostWrite_unused (by omega) (by omega) v _, fun ha => ?_,
      fun k hk ha => ⟨_, hostWrite_arg hk ha v _, rfl, fun j _ => Args.get_set _ _ _ _ hk⟩, fun ha => ?_⟩
    · obtain rfl := haddr ha
      refine ⟨_, hostWrite_status v _, rfl, getLsbD_statusW1C s.status v 0, getLsbD_statusW1C s.status v 1,
        fun j hj => ?_⟩
      simp [getLsbD_statusW1C, Nat.not_lt.2 hj]
    · obtain rfl := haddr ha
      exact ⟨fun i hi => issue_of_ok hi, fun r hr => issue_of_error hr⟩

/-- Settles O12: reads change only the read log, a write but to CMD is done again without effect, and a command keeps the
operand registers, so that the same opcode makes the same word again. -/
theorem repeatedAccesses : Obligations.RepeatedAccesses := by
  refine ⟨fun s t a h => ?_, fun s a v ha => ?_, fun s v i hi => ⟨issue_of_ok hi, fun t h => ?_⟩⟩
  · rw [← Host.Outcome.next.inj h]
    exact ⟨rfl, fun b => rfl⟩
  · obtain ⟨t, h⟩ := hostWrite_next a v s
    refine ⟨t, h, hostWrite_again ha h, fun hlt => ?_, fun hlo hhi => ?_, fun hst => ?_, fun hlo hun => ?_⟩
    · rw [hostWrite_aperture (by omega)] at h
      rw [← Host.Outcome.next.inj h]
      exact ⟨rfl, fun p c _ hc => Framebuffer.cell_write _ _ _ hc⟩
    · obtain ⟨k, hk⟩ := Nat.exists_eq_add_of_le hlo
      rw [hostWrite_arg (by omega) hk] at h
      rw [← Host.Outcome.next.inj h]
      refine ⟨rfl, fun j _ => ?_⟩
      rw [storeArg_args, Args.get_set _ _ _ _ (by omega)]
      exact if_congr (by omega) rfl rfl
    · obtain rfl : a = 0x208 := BitVec.eq_of_toNat_eq hst
      rw [hostWrite_status] at h
      rw [← Host.Outcome.next.inj h]
      exact ⟨rfl, fun j _ => getLsbD_statusW1C _ _ _⟩
    · rw [hostWrite_unused hlo hun] at h
      exact (Host.Outcome.next.inj h).symm
  · have hargs : t.args = s.args := (exec_writtenBy h).args
    exact issue_of_ok (hargs ▸ hi)

/-- Settles O53: a run of the 504 writes stores the bytes, and a run of the 504 reads then returns them. -/
theorem loadBitmapRoundTrip : Obligations.LoadBitmapRoundTrip := by
  refine ⟨fun bytes hlen => if_neg fun h => hlen h.1, fun bytes hlen hb => ?_⟩
  refine ⟨_, assemble_loadBitmap hlen hb, fun k hk => ?_, fun s rest hs hp => ?_⟩
  · rw [getElem?_bitmapWrites (by omega), Nat.zero_add]
    rfl
  · rw [List.append_assoc] at hp
    have hread := stepMany_reads (BitVec.ofNat 10) (ks := List.range 504) (rest := rest)
      (s := { s with fb := s.fb.storeFrom 0 bytes, pending := _ }) hs rfl
    rw [List.length_range, map_hostRead_storeFrom hlen rfl] at hread
    have hwrite := stepMany_bitmapWrites hs (by omega) hp
    rw [hlen] at hwrite
    refine ⟨_, stepMany_add hwrite hread, rfl, fun p c hp hc => ?_⟩
    have hi := cellIndex_lt hp hc
    rw [Framebuffer.cell, Framebuffer.read_storeFrom, if_pos (by simpa [hlen] using hi), Nat.sub_zero,
      operandByte_toNat, cellIndex_eq]
    rw [← List.getElem_eq_getD 0 (h := by rw [hlen]; exact hi)]
    exact hb _ (List.getElem_mem _)

/-- Settles O8: a one-byte read logs its byte, and `serve` refuses both kinds of access at any other width. -/
theorem otherWidthsAreRefused : Obligations.OtherWidthsAreRefused := by
  intro s a n v rest hs
  refine ⟨fun hp => ⟨_, step_read hs hp⟩, fun hp hn => ?_, fun hp hn => ?_⟩
  · rw [step_of_pending hs hp]
    exact if_neg hn
  · rw [step_of_pending hs hp]
    exact if_neg hn

/-- Settles O10: the address is the flat index of the one cell that the read returns. -/
theorem apertureReadReturnsCell : Obligations.ApertureReadReturnsCell := by
  intro s a rest hs ha hp
  rw [step_read hs hp, hostRead_aperture (by omega), Framebuffer.cell, cellIndex_div_mod]

end Sys2Proof.Machine
end

section
/-! The encoding of commands in the bits that their formats name, the word that a write to CMD issues, what a command
does not touch, runs of the assembler's host writes, and the statements of 30_encoding.md (rules R52 to R58, R62, R64,
R66, R67). -/

namespace Sys2Proof

/-! ## The bits a format names, byte by byte -/

/-- For each ARG byte that the command's format names, the bits of it that the format names (R53): `namedBits` as
bytes (`namedBits_eq_packWord`). -/
def Instr.maskBytes : Instr → List Byte
  | .nop => []
  | .clear => []
  | .setPixel _ _ _ => [0xFF, 0xFF, 0x01]
  | .drawLine _ _ _ _ _ => [0xFF, 0xFF, 0xFF, 0xFF, 0x01]
  | .drawHline _ _ _ _ => [0xFF, 0xFF, 0xFF, 0x01]
  | .drawVline _ _ _ _ => [0xFF, 0xFF, 0xFF, 0x01]
  | .drawTriangle _ _ _ _ _ _ _ => [0xFF, 0xFF, 0xFF, 0xFF, 0xFF, 0xFF, 0x01]
  | .drawChar _ _ _ => [0xFF, 0xFF, 0xFF]
  | .writeByte _ => [0xFF]
  | .setCursor _ _ => [0xFF, 0xFF]
  | .setTextAttr _ _ => [0xFF, 0x01]
  | .init _ => [0xFF]
  | .setContrast _ => [0xFF]
  | .flush => []

theorem namedBits_eq_packWord (i : Instr) : i.namedBits = packWord 0xFF i.maskBytes := by
  cases i <;> simp [Instr.namedBits, Instr.maskBytes, packWord, packBytes]

theorem maskBytes_length (i : Instr) : i.maskBytes.length = i.argBytes.length := by
  cases i <;> rfl

theorem argBytes_length_le (i : Instr) : i.argBytes.length ≤ 7 := by
  cases i <;> simp [Instr.argBytes]

@[simp] theorem wordByte_packWord_zero (opc : Byte) (bs : List Byte) :
    wordByte (packWord opc bs) 0 = opc := wordByte_packBytes_zero ..

theorem wordByte_packWord_succ (opc : Byte) (bs : List Byte) {k : Nat} (hk : k < 7) :
    wordByte (packWord opc bs) (k + 1) = bs.getD k 0 := by
  unfold packWord
  interval_cases k <;> simp only [Nat.reduceAdd, wordByte_packBytes_one, wordByte_packBytes_two,
    wordByte_packBytes_three, wordByte_packBytes_four, wordByte_packBytes_five, wordByte_packBytes_six,
    wordByte_packBytes_seven]

/-- A word holds a command's encoding in the named bits just when each of its bytes does. -/
theorem and_namedBits_eq_encode_iff {w : BitVec 64} {i : Instr} :
    w &&& i.namedBits = encode i ↔ wordByte w 0 = i.opcode ∧
      ∀ k, k < 7 → wordByte w (k + 1) &&& i.maskBytes.getD k 0 = i.argBytes.getD k 0 := by
  rw [namedBits_eq_packWord, encode]
  constructor
  · intro h
    have hb (k : Nat) := congrArg (wordByte · k) h
    refine ⟨by simpa using hb 0, fun k hk => ?_⟩
    simpa only [wordByte_and, wordByte_packWord_succ _ _ hk] using hb (k + 1)
  · rintro ⟨h0, hb⟩
    apply word_ext
    rintro (_ | k) hk
    · simp [h0]
    · rw [wordByte_and, wordByte_packWord_succ _ _ (by omega), wordByte_packWord_succ _ _ (by omega)]
      exact hb k (by omega)

open Laws.EncodedForm in
/-- The encoding of a command lies in the bits that its format names (R64). -/
theorem encode_and_namedBits (i : Instr) : encode i &&& i.namedBits = encode i := by
  have hform : Statement i := match i with
    | .nop => nop
    | .clear => clear
    | .setPixel x y on => setPixel x y on
    | .drawLine x0 y0 x1 y1 c => drawLine x0 y0 x1 y1 c
    | .drawHline x y w c => drawHline x y w c
    | .drawVline x y h c => drawVline x y h c
    | .drawTriangle x1 y1 x2 y2 x3 y3 c => drawTriangle x1 y1 x2 y2 x3 y3 c
    | .drawChar x y code => drawChar x y code
    | .writeByte b => writeByte b
    | .setCursor x y => setCursor x y
    | .setTextAttr size color => setTextAttr size color
    | .init contrast => init contrast
    | .setContrast contrast => setContrast contrast
    | .flush => flush
  exact hform.2

theorem argBytes_and_maskBytes (i : Instr) {k : Nat} (hk : k < 7) :
    i.argBytes.getD k 0 &&& i.maskBytes.getD k 0 = i.argBytes.getD k 0 := by
  obtain ⟨-, hargs⟩ := and_namedBits_eq_encode_iff.1 (encode_and_namedBits i)
  have harg := hargs k hk
  rwa [encode, wordByte_packWord_succ _ _ hk] at harg

/-! ## What the decoder reads -/

@[simp] theorem isByte_byteField (w : BitVec 64) (k : Nat) : isByte (byteField w k) = true :=
  isByte_eq_true.2 (wordByte w k).isLt

@[simp] theorem operandByte_byteField (w : BitVec 64) (k : Nat) :
    operandByte (byteField w k) = wordByte w k := operandByte_toNat_byte _

@[simp] theorem operandBit_bitField (w : BitVec 64) (k : Nat) :
    operandBit (bitField w k) = wordByte w k &&& 1#8 := (and_one_eq_operandBit _).symm

theorem wellFormed_of_decodeWord {w : BitVec 64} {i : Instr} (h : decodeWord w = .ok i) :
    i.wellFormed = true := by
  unfold decodeWord at h
  split at h <;> cases h <;> simp [Instr.wellFormed]

/-- The ARG bytes of a decoded command are those of the word, cut down to the bits that the format names
(R54, R57). -/
theorem argBytes_of_decodeWord {w : BitVec 64} {i : Instr} (h : decodeWord w = .ok i) :
    i.argBytes = i.maskBytes.mapIdx fun k m => wordByte w (k + 1) &&& m := by
  unfold decodeWord at h
  split at h <;> cases h <;> simp [Instr.argBytes, Instr.maskBytes]

theorem and_namedBits_of_decodeWord {w : BitVec 64} {i : Instr} (h : decodeWord w = .ok i) :
    w &&& i.namedBits = encode i := by
  refine and_namedBits_eq_encode_iff.2 ⟨Machine.wordByte_zero_of_decodeWord h, fun k _ => ?_⟩
  rw [argBytes_of_decodeWord h]
  by_cases hk : k < i.maskBytes.length <;> simp [List.getD, hk]

theorem byteField_of_mask {w : BitVec 64} {k n : Nat} (hn : isByte n = true)
    (h : wordByte w k &&& 0xFF = operandByte n) : byteField w k = n := by
  rw [byteField, ← byte_and_ff (wordByte w k)]
  exact (congrArg BitVec.toNat h).trans (operandByte_toNat (isByte_eq_true.1 hn))

theorem bitField_of_mask {w : BitVec 64} {k : Nat} {b : Bool}
    (h : wordByte w k &&& 0x01 = operandBit b) : bitField w k = b := by
  have h := congrArg (BitVec.getLsbD · 0) ((operandBit_bitField w k).trans h)
  rwa [operandBit_getLsbD_zero, operandBit_getLsbD_zero] at h

/-- A word that holds a command's encoding in the named bits decodes to that command: the opcode selects the decoder's
arm, and each field of the arm reads its operand back (R53, R54, R57). -/
theorem decodeWord_of_and_namedBits {w : BitVec 64} {i : Instr} (hi : i.wellFormed = true)
    (h : w &&& i.namedBits = encode i) : decodeWord w = .ok i := by
  obtain ⟨h0, hargs⟩ := and_namedBits_eq_encode_iff.1 h
  unfold decodeWord
  rw [h0]
  cases i with
  | nop | clear | flush => rfl
  | setPixel x y on =>
    simp only [Instr.wellFormed, Bool.and_eq_true] at hi
    obtain ⟨hx, hy⟩ := hi
    simp [Instr.opcode, byteField_of_mask hx (hargs 0 _), byteField_of_mask hy (hargs 1 _),
      bitField_of_mask (hargs 2 _)]
  | drawLine x0 y0 x1 y1 c =>
    simp only [Instr.wellFormed, Bool.and_eq_true, and_assoc] at hi
    obtain ⟨hx0, hy0, hx1, hy1⟩ := hi
    simp [Instr.opcode, byteField_of_mask hx0 (hargs 0 _), byteField_of_mask hy0 (hargs 1 _),
      byteField_of_mask hx1 (hargs 2 _), byteField_of_mask hy1 (hargs 3 _),
      bitField_of_mask (hargs 4 _)]
  | drawHline x y w c =>
    simp only [Instr.wellFormed, Bool.and_eq_true, and_assoc] at hi
    obtain ⟨hx, hy, hw⟩ := hi
    simp [Instr.opcode, byteField_of_mask hx (hargs 0 _), byteField_of_mask hy (hargs 1 _),
      byteField_of_mask hw (hargs 2 _), bitField_of_mask (hargs 3 _)]
  | drawVline x y h c =>
    simp only [Instr.wellFormed, Bool.and_eq_true, and_assoc] at hi
    obtain ⟨hx, hy, hh⟩ := hi
    simp [Instr.opcode, byteField_of_mask hx (hargs 0 _), byteField_of_mask hy (hargs 1 _),
      byteField_of_mask hh (hargs 2 _), bitField_of_mask (hargs 3 _)]
  | drawTriangle x1 y1 x2 y2 x3 y3 c =>
    simp only [Instr.wellFormed, Bool.and_eq_true, and_assoc] at hi
    obtain ⟨hx1, hy1, hx2, hy2, hx3, hy3⟩ := hi
    simp [Instr.opcode, byteField_of_mask hx1 (hargs 0 _), byteField_of_mask hy1 (hargs 1 _),
      byteField_of_mask hx2 (hargs 2 _), byteField_of_mask hy2 (hargs 3 _),
      byteField_of_mask hx3 (hargs 4 _), byteField_of_mask hy3 (hargs 5 _),
      bitField_of_mask (hargs 6 _)]
  | drawChar x y code =>
    simp only [Instr.wellFormed, Bool.and_eq_true, and_assoc] at hi
    obtain ⟨hx, hy, hcode⟩ := hi
    simp [Instr.opcode, byteField_of_mask hx (hargs 0 _), byteField_of_mask hy (hargs 1 _),
      byteField_of_mask hcode (hargs 2 _)]
  | writeByte b =>
    have hb : isByte b = true := hi
    simp [Instr.opcode, byteField_of_mask hb (hargs 0 _)]
  | setCursor x y =>
    simp only [Instr.wellFormed, Bool.and_eq_true] at hi
    obtain ⟨hx, hy⟩ := hi
    simp [Instr.opcode, byteField_of_mask hx (hargs 0 _), byteField_of_mask hy (hargs 1 _)]
  | setTextAttr size color =>
    have hsize : isByte size = true := hi
    simp [Instr.opcode, byteField_of_mask hsize (hargs 0 _), bitField_of_mask (hargs 1 _)]
  | init contrast =>
    have hcontrast : isByte contrast = true := hi
    simp [Instr.opcode, byteField_of_mask hcontrast (hargs 0 _)]
  | setContrast contrast =>
    have hcontrast : isByte contrast = true := hi
    simp [Instr.opcode, byteField_of_mask hcontrast (hargs 0 _)]

/-- What a word decodes to: the one well-formed command whose encoding it holds in the named bits (R53, R54, R57). -/
theorem decodeWord_eq_ok_iff {w : BitVec 64} {i : Instr} :
    decodeWord w = .ok i ↔ i.wellFormed = true ∧ w &&& i.namedBits = encode i :=
  ⟨fun h => ⟨wellFormed_of_decodeWord h, and_namedBits_of_decodeWord h⟩,
    fun ⟨hi, h⟩ => decodeWord_of_and_namedBits hi h⟩

end Sys2Proof

namespace Sys2Proof.Machine

/-! ## The word of a CMD write -/

theorem decodeWord_of_not_mem_definedOpcodes {w : BitVec 64}
    (h : (wordByte w 0).toNat ∉ definedOpcodes) : ∃ r, decodeWord w = .error r := by
  cases hw : decodeWord w with
  | ok i => exact absurd (wordByte_zero_of_decodeWord hw ▸ opcode_mem_definedOpcodes i) h
  | error r => exact ⟨r, rfl⟩

theorem wordByte_commandWord_succ (a : Args) (v : Byte) {k : Nat} (hk : k < 7) :
    wordByte (commandWord a v) (k + 1) = a.get k := by
  unfold commandWord
  interval_cases k <;> simp [Args.get]

/-- With a command's ARG bytes in the first operand registers, its opcode issues it, whatever the other registers hold
(R57, R62). -/
theorem decodeWord_commandWord {i : Instr} {a : Args} (hi : i.wellFormed = true)
    (ha : ∀ k, k < i.argBytes.length → a.get k = i.argBytes.getD k 0) :
    decodeWord (commandWord a i.opcode) = .ok i := by
  refine decodeWord_eq_ok_iff.2 ⟨hi, and_namedBits_eq_encode_iff.2
    ⟨wordByte_commandWord_zero a _, fun k hk => ?_⟩⟩
  rw [wordByte_commandWord_succ a _ hk]
  by_cases hlt : k < i.argBytes.length
  · rw [ha k hlt, argBytes_and_maskBytes i hk]
  · rw [List.getD_eq_default i.maskBytes 0 (by rw [maskBytes_length]; omega),
      List.getD_eq_default i.argBytes 0 (by omega)]
    exact BitVec.and_zero

section

variable {v : Byte} {s : State} {rest : List HostEvent} (hs : s.stalled = false)
  (hp : s.pending = .write 0x200 1 v :: rest)
include hs hp

theorem step_cmd_of_ok {i : Instr} (h : decodeWord (commandWord s.args v) = .ok i) :
    step s = exec i { s with pending := rest } := (step_write hs hp).trans (issue_of_ok h)

theorem step_cmd_of_error {r : Reject} (h : decodeWord (commandWord s.args v) = .error r) :
    step s = .next { s with pending := rest, status := s.status ||| 0x01 } :=
  (step_write hs hp).trans (issue_of_error h)

end

/-! ## What a command does not touch -/

/-- The state with other operand registers and other host events to come, which `exec` neither reads nor writes
(`exec_withHost`). -/
def State.withHost (s : State) (a : Args) (p : List HostEvent) : State := { s with args := a, pending := p }

@[simp] theorem State.withHost_withHost (s : State) (a b : Args) (p q : List HostEvent) :
    (s.withHost a p).withHost b q = s.withHost b q := rfl

@[simp] theorem State.withHost_ready (s : State) (a : Args) (p : List HostEvent) :
    (s.withHost a p).ready = s.ready := rfl

section

variable {s t : State} (a : Args) (p : List HostEvent)

theorem emitThen_withHost {items : List ByteEvent} {rest : State → State}
    (hrest : ∀ u : State, rest (u.withHost a p) = (rest u).withHost a p)
    (h : emitThen items rest s = .next t) :
    emitThen items rest (s.withHost a p) = .next (t.withHost a p) := by
  rcases emitThen_cases h with ⟨hacc, rfl⟩ | ⟨hacc, rfl⟩
  · rw [← hrest]
    exact emitThen_of_accepts hacc
  · exact emitThen_of_not_accepts hacc

theorem whenReady_withHost {run : State → Result}
    (hrun : run s = .next t → run (s.withHost a p) = .next (t.withHost a p))
    (h : whenReady run s = .next t) : whenReady run (s.withHost a p) = .next (t.withHost a p) := by
  rcases whenReady_cases h with ⟨hr, h⟩ | ⟨hr, rfl⟩
  · exact (if_pos hr).trans (hrun h)
  · exact if_neg (by simp [hr])

theorem writeByte_withHost (b : Nat) (s : State) :
    writeByte b (s.withHost a p) = (writeByte b s).withHost a p := by
  unfold writeByte
  split
  · rfl
  · split <;> rfl

/-- A command does the same whatever the operand registers and the host events to come (R57). -/
theorem exec_withHost {i : Instr} (h : exec i s = .next t) :
    exec i (s.withHost a p) = .next (t.withHost a p) := by
  cases i with
  | drawHline x y w c =>
    simp only [exec, execDrawHline] at h ⊢
    split at h <;> rw [← Host.Outcome.next.inj h]
    exacts [if_pos ‹_›, if_neg ‹_›]
  | drawVline x y w c =>
    simp only [exec, execDrawVline] at h ⊢
    split at h <;> rw [← Host.Outcome.next.inj h]
    exacts [if_pos ‹_›, if_neg ‹_›]
  | writeByte b =>
    rw [← Host.Outcome.next.inj h, ← writeByte_withHost]
    rfl
  | init c =>
    exact emitThen_withHost a p (rest := fun t => becomeReady (storeContrast c t)) (fun _ => rfl) h
  | setContrast c => exact whenReady_withHost a p (emitThen_withHost a p fun _ => rfl) h
  | flush => exact whenReady_withHost a p (emitThen_withHost a p (rest := fun t => t) fun _ => rfl) h
  | _ => rw [← Host.Outcome.next.inj h]; rfl

end

theorem exec_pending {i : Instr} {s t : State} (h : exec i s = .next t) : t.pending = s.pending := by
  have hsame := h.symm.trans (exec_withHost s.args s.pending h)
  rw [Host.Outcome.next.inj hsame]
  rfl

theorem exec_with_args {i : Instr} {s t : State} (h : exec i s = .next t) (a : Args) :
    exec i { s with args := a } = .next { t with args := a } :=
  (exec_withHost a s.pending h).trans (by rw [State.withHost, ← exec_pending h])

theorem exec_stalled_of_silent {i : Instr} {s t : State} (hi : isSerializer i = false)
    (h : exec i s = .next t) : t.stalled = s.stalled := by
  rw [exec_frame_of_silent (by rintro c rfl; cases hi) (by rintro c rfl; cases hi)
    (by rintro rfl; cases hi) h]

/-! ## Serving the host writes of a command -/

/-- The operand registers with bytes stored into consecutive ones, from ARG`k` on: what a run of ARG writes leaves
(`stepMany_argWrites`). -/
def Args.storeFrom (a : Args) (k : Nat) : List Byte → Args
  | [] => a
  | b :: bs => (a.set k b).storeFrom (k + 1) bs

theorem Args.get_storeFrom (a : Args) {k : Nat} {bs : List Byte} (hk : k + bs.length ≤ 7) (j : Nat) :
    (a.storeFrom k bs).get j = if k ≤ j then bs.getD (j - k) (a.get j) else a.get j := by
  induction bs generalizing a k with
  | nil => simp [storeFrom]
  | cons b bs ih =>
    rw [List.length_cons] at hk
    rw [storeFrom, ih _ (by omega), Args.get_set _ _ _ _ (by omega)]
    obtain hlt | rfl | hgt := Nat.lt_trichotomy j k
    · rw [if_neg (by omega), if_neg (by omega), if_neg (by omega)]
    · simp
    · obtain ⟨d, rfl⟩ := Nat.exists_eq_add_of_lt hgt
      rw [if_pos (by omega), if_neg (by omega), if_pos (by omega), show k + d + 1 - k = d + 1 by omega,
        List.getD_cons_succ, show k + d + 1 - (k + 1) = d by omega]

theorem Args.get_storeFrom_argBytes (a : Args) (i : Instr) (j : Nat) :
    (a.storeFrom 0 i.argBytes).get j = i.argBytes.getD j (a.get j) := by
  have hlen := argBytes_length_le i
  rw [get_storeFrom _ (by omega), if_pos (Nat.zero_le j), Nat.sub_zero]

@[simp] theorem argWrites_length (k : Nat) (bs : List Byte) : (argWrites k bs).length = bs.length := by
  induction bs generalizing k with
  | nil => rfl
  | cons b bs ih => rw [argWrites, List.length_cons, ih, List.length_cons]

/-- The write at place `j` of a run from ARG`k` on stores byte `j` into ARG`k + j` (R64). -/
theorem getElem?_argWrites {bs : List Byte} {k j : Nat} (hj : j < bs.length) :
    (argWrites k bs)[j]? = some (.write (BitVec.ofNat 10 (0x201 + (k + j))) 1 (bs.getD j 0)) := by
  induction bs generalizing k j with
  | nil => cases hj
  | cons b bs ih =>
    cases j with
    | zero => rfl
    | succ j =>
      rw [argWrites, List.getElem?_cons_succ, ih (Nat.lt_of_succ_lt_succ hj), List.getD_cons_succ,
        Nat.add_right_comm k, Nat.add_assoc k]

theorem stepMany_argWrites {bs : List Byte} {k : Nat} {s : State} {rest : List HostEvent}
    (hs : s.stalled = false) (hk : k + bs.length ≤ 7) (hp : s.pending = argWrites k bs ++ rest) :
    stepMany bs.length s = .next (s.withHost (s.args.storeFrom k bs) rest) := by
  induction bs generalizing k s with
  | nil =>
    obtain rfl : s.pending = rest := hp
    rfl
  | cons b bs ih =>
    rw [List.length_cons] at hk ⊢
    have ha : (BitVec.ofNat 10 (0x201 + k)).toNat = 0x201 + k := by
      rw [BitVec.toNat_ofNat, Nat.mod_eq_of_lt (by omega)]
    have hstep := (step_write hs hp).trans (hostWrite_arg (by omega) ha b _)
    rw [stepMany_succ hstep]
    exact ih hs (by omega) rfl

theorem hostWrites_length (i : Instr) : (hostWrites i).length = i.argBytes.length + 1 := by
  simp [hostWrites]

/-- The host writes of a command execute that command, beside the ARG bytes they store (R62, R64). -/
theorem stepMany_hostWrites {i : Instr} {s : State} {rest : List HostEvent} (hi : i.wellFormed = true)
    (hs : s.stalled = false) (hp : s.pending = hostWrites i ++ rest) :
    stepMany (hostWrites i).length s = exec i (s.withHost (s.args.storeFrom 0 i.argBytes) rest) := by
  rw [hostWrites, List.append_assoc] at hp
  have hlen := argBytes_length_le i
  have hargs := stepMany_argWrites hs (by omega) hp
  have hdec : decodeWord (commandWord (s.args.storeFrom 0 i.argBytes) i.opcode) = .ok i :=
    decodeWord_commandWord hi fun k hk => by
      rw [Args.get_storeFrom_argBytes, List.getD_eq_getElem _ _ hk, List.getD_eq_getElem _ _ hk]
  obtain ⟨t, ht⟩ := exec_next i (s.withHost (s.args.storeFrom 0 i.argBytes) rest)
  have hcmd := step_cmd_of_ok (s := s.withHost (s.args.storeFrom 0 i.argBytes) _) (rest := rest) hs rfl hdec
  rw [hostWrites_length, ht]
  exact stepMany_add hargs (stepMany_succ (hcmd.trans ht) 0)

/-! ## Serving a list of commands -/

theorem stringWrites_eq_flatMap (str : List Nat) :
    stringWrites str = (str.map Instr.writeByte).flatMap hostWrites := by
  induction str with
  | nil => rfl
  | cons b bs ih => rw [stringWrites, ih, List.map_cons, List.flatMap_cons]

theorem execAll_next (is : List Instr) (s : State) : ∃ u, execAll is s = .next u := by
  induction is generalizing s with
  | nil => exact ⟨s, rfl⟩
  | cons i is ih =>
    obtain ⟨t, ht⟩ := exec_next i s
    rw [execAll, ht]
    exact ih t

/-- Serving the host writes of silent commands, one command after the other, does what executing them does, but for
the operand registers. No serializer command is among them, so none leaves the block waiting before the next one's
writes. -/
theorem stepMany_flatMap_hostWrites {is : List Instr} (hwf : ∀ i ∈ is, i.wellFormed = true)
    (hsilent : ∀ i ∈ is, isSerializer i = false) {s u : State} {a : Args} {rest : List HostEvent}
    (hs : s.stalled = false) (hp : s.pending = is.flatMap hostWrites ++ rest)
    (hu : execAll is (s.withHost a rest) = .next u) :
    ∃ b : Args, stepMany (is.flatMap hostWrites).length s = .next { u with args := b } := by
  induction is generalizing s a with
  | nil =>
    obtain rfl : s.pending = rest := hp
    rw [← Host.Outcome.next.inj hu]
    exact ⟨s.args, rfl⟩
  | cons i is ih =>
    obtain ⟨hi, hwf⟩ := List.forall_mem_cons.1 hwf
    obtain ⟨hisilent, hsilent⟩ := List.forall_mem_cons.1 hsilent
    rw [List.flatMap_cons, List.append_assoc] at hp
    obtain ⟨t, ht⟩ := exec_next i (s.withHost a rest)
    rw [execAll, ht] at hu
    have hrun := (stepMany_hostWrites hi hs hp).trans (exec_withHost (s := s.withHost a rest) _ _ ht)
    have hts : t.stalled = false := (exec_stalled_of_silent hisilent ht).trans hs
    have htp : t.pending = rest := exec_pending ht
    obtain ⟨b, hb⟩ := ih hwf hsilent (s := t.withHost (s.args.storeFrom 0 i.argBytes) _)
      (a := t.args) hts rfl (by rw [← htp]; exact hu)
    rw [List.flatMap_cons, List.length_append]
    exact ⟨b, stepMany_add hrun hb⟩

/-! ## The statements -/

/-- Settles O1: the encoding holds itself in the named bits. -/
theorem decodeEncodeAgree : Obligations.DecodeEncodeAgree := fun i hi =>
  decodeWord_eq_ok_iff.2 ⟨hi, encode_and_namedBits i⟩

/-- Settles O2: the decoder reads the opcode and the named bits alone, and `exec` does not touch the operand
registers. -/
theorem unnamedBitsAreIgnored : Obligations.UnnamedBitsAreIgnored :=
  ⟨fun _ _ hi h => decodeWord_eq_ok_iff.2 ⟨hi, h⟩,
    fun _ _ _ h => ⟨(exec_writtenBy h).args, exec_with_args h⟩⟩

/-- Settles O3: the other direction of `decodeWord_eq_ok_iff`. -/
theorem decodedWordHoldsItsEncoding : Obligations.DecodedWordHoldsItsEncoding :=
  fun _ _ h => decodeWord_eq_ok_iff.1 h

/-- Settles O5: a word with such an opcode byte decodes to no command; the count is over the list of the map. -/
theorem undefinedOpcodeRaisesIllegal : Obligations.UndefinedOpcodeRaisesIllegal := by
  refine ⟨fun s v rest hs hp hv => ?_, by decide +kernel, by decide, by decide⟩
  obtain ⟨r, hr⟩ := decodeWord_of_not_mem_definedOpcodes (w := commandWord s.args v) (by simpa using hv)
  exact step_cmd_of_error hs hp hr

/-- Settles O6: by the two outcomes of `issue`. -/
theorem cmdWriteIssuesCommand : Obligations.CmdWriteIssuesCommand := by
  intro s v rest w hs hp hw
  obtain rfl : w = commandWord s.args v := hw
  exact ⟨fun _ hi => step_cmd_of_ok hs hp hi, fun _ hr => step_cmd_of_error hs hp hr⟩

/-- Settles O52: the ARG writes store the bytes that the format names, and the CMD write then issues the command
(`stepMany_hostWrites`). -/
theorem assembledCommandIsExecuted : Obligations.AssembledCommandIsExecuted := by
  intro i
  refine ⟨fun hi => if_neg (by simp [hi]), fun hi => ⟨hostWrites i, if_pos hi, hostWrites_length i,
    fun k hk => ?_, ?_, fun s rest hs hp => ⟨_, fun k _ => s.args.get_storeFrom_argBytes i k,
      stepMany_hostWrites hi hs hp⟩⟩⟩
  · rw [hostWrites, List.getElem?_append_left (by simpa using hk), getElem?_argWrites hk, Nat.zero_add]
  · simp [hostWrites]

/-- Settles O54: the expansion is the host writes of SET_CURSOR and of the WRITE_BYTE commands, all of them silent
(`stepMany_flatMap_hostWrites`). -/
theorem writeStringRunsItsCommands : Obligations.WriteStringRunsItsCommands := by
  intro x y str hx hy hstr
  have hwf : ∀ i ∈ .setCursor x y :: str.map Instr.writeByte, i.wellFormed = true := by
    simpa [Instr.wellFormed, isByte_eq_true, hx, hy] using hstr
  have hsilent : ∀ i ∈ .setCursor x y :: str.map Instr.writeByte, isSerializer i = false := by
    simp [isSerializer]
  have hasm : assemble (.writeString x y str)
      = some ((.setCursor x y :: str.map Instr.writeByte).flatMap hostWrites) := by
    rw [assemble, if_pos (by simpa [isByte_eq_true, hx, hy] using hstr), stringWrites_eq_flatMap,
      List.flatMap_cons]
  refine ⟨_, hasm, fun s rest hs hp => ?_⟩
  obtain ⟨u, hu⟩ := execAll_next (.setCursor x y :: str.map Instr.writeByte) { s with pending := rest }
  obtain ⟨b, hb⟩ := stepMany_flatMap_hostWrites hwf hsilent hs hp hu
  exact ⟨_, u, hb, hu, rfl⟩

/-- Settles O55: the address is the flat index of the pixel's cell, and 0x03 clears bits 1:0 of STATUS. -/
theorem readPixelAndClearStatus : Obligations.ReadPixelAndClearStatus := by
  refine ⟨fun x y h => if_neg ?_, fun x y s rest hx hy hs => ?_, fun s rest hs => ⟨rfl, fun hp => ?_⟩⟩
  · rw [onDisplay_iff]
    omega
  · have ha : (BitVec.ofNat 10 (cellIndex (y / 8) x)).toNat = cellIndex (y / 8) x := by
      rw [BitVec.toNat_ofNat, cellIndex_eq, Nat.mod_eq_of_lt (by omega)]
    have hlt : cellIndex (y / 8) x < 504 := cellIndex_lt (by omega) hx
    refine ⟨_, if_pos (onDisplay_iff.2 ⟨hx, hy⟩), ha, fun hp => ⟨_, step_read hs hp, ?_⟩⟩
    rw [hostRead_aperture (by rw [ha]; exact hlt), ha]
    exact ⟨rfl, rfl⟩
  · refine ⟨_, (step_write hs hp).trans (hostWrite_status _ _), rfl, ?_, ?_, fun j hj => ?_⟩
    · exact (getLsbD_statusW1C s.status 0x03 0).trans (by simp)
    · exact (getLsbD_statusW1C s.status 0x03 1).trans (by simp)
    · simp [getLsbD_statusW1C, Nat.not_lt.2 hj]

end Sys2Proof.Machine
end

section
/-! The words of NOP, CLEAR and SET_PIXEL, what a clear and a clipped pixel leave, and the statements of
40_framebuffer.md (rules R68 to R71). -/

namespace Sys2Proof

/-! ## Decoding by the opcode byte -/

theorem bitField_eq_getLsbD (w : BitVec 64) (k : Nat) : bitField w k = w.getLsbD (8 * k) := by
  simp [bitField, wordByte]

section
variable {w : BitVec 64}

theorem decodeWord_nop (h : wordByte w 0 = 0x00) : decodeWord w = .ok .nop := by
  rw [decodeWord, h]
  rfl

theorem decodeWord_clear (h : wordByte w 0 = 0x01) : decodeWord w = .ok .clear := by
  rw [decodeWord, h]
  rfl

theorem decodeWord_setPixel (h : wordByte w 0 = 0x02) :
    decodeWord w = .ok (.setPixel (byteField w 1) (byteField w 2) (bitField w 3)) := by
  rw [decodeWord, h]
  rfl

end

end Sys2Proof

namespace Sys2Proof.Machine

/-! ## What a clear and a clipped pixel leave -/

theorem Framebuffer.cell_clear (fb : Framebuffer) {p c : Nat} (hp : p < 6) (hc : c < 84) :
    fb.clear.cell p c = 0x00 := fb.read_clear (cellIndex_lt hp hc)

theorem Framebuffer.pixel_clear (fb : Framebuffer) {x y : Nat} (hx : x < 84) (hy : y < 48) :
    fb.clear.pixel x y = false := by
  rw [Framebuffer.pixel, fb.cell_clear (by omega) hx]
  exact BitVec.getLsbD_zero

theorem setPixel_of_off_display (fb : Framebuffer) {x y : Nat} (on : Bool) (h : 84 ≤ x ∨ 48 ≤ y) :
    setPixel x y on fb = fb := by
  refine if_neg ?_
  rw [onDisplay_iff]
  omega

/-! ## The statements -/

/-- Settles O17: the cells by `Framebuffer.cell_clear`, the pixels by `Framebuffer.pixel_clear`. -/
theorem clearZeroesCellsAndCursor : Obligations.ClearZeroesCellsAndCursor :=
  ⟨fun _ h => decodeWord_clear h, fun s => ⟨_, rfl, rfl, s.fb.clear_draw,
    fun _ _ hp hc => s.fb.cell_clear hp hc, fun _ _ hx hy => s.fb.pixel_clear hx hy⟩⟩

/-- Settles O18: the pixel primitive's laws `pixel_setPixel`, `cell_setPixel_of_ne` and
`setPixel_of_off_display`. -/
theorem setPixelChangesOnePixel : Obligations.SetPixelChangesOnePixel := by
  refine ⟨fun w h => ?_, fun x y on s => ⟨_, rfl, rfl, setPixel_draw x y on s.fb,
    setPixel_of_off_display s.fb on, fun _ _ hpx hpy => pixel_setPixel s.fb on hpx hpy,
    fun _ _ _ hc hne => cell_setPixel_of_ne s.fb on hc hne⟩⟩
  have hbit : bitField w 3 = w.getLsbD 24 := bitField_eq_getLsbD w 3
  rw [decodeWord_setPixel h, hbit]
  rfl

/-- Settles O16: the opcode byte alone selects NOP, whose next state is the state itself. -/
theorem nopChangesNothing : Obligations.NopChangesNothing :=
  ⟨fun _ h => decodeWord_nop h, fun _ => rfl⟩

end Sys2Proof.Machine
end

section
/-! The words of the four line commands, the counts and bounds that the loop of the line primitive keeps, the points it
plots, and the statements of 41_line_engine.md (rules R73 to R81). -/

namespace Sys2Proof

/-! ## Decoding by the opcode byte -/

section
variable {w : BitVec 64}

theorem decodeWord_drawLine (h : wordByte w 0 = 0x10) :
    decodeWord w = .ok (.drawLine (byteField w 1) (byteField w 2) (byteField w 3) (byteField w 4)
      (w.getLsbD 40)) := by
  rw [decodeWord, h, bitField_eq_getLsbD w 5]
  rfl

theorem decodeWord_drawHline (h : wordByte w 0 = 0x11) :
    decodeWord w = .ok (.drawHline (byteField w 1) (byteField w 2) (byteField w 3) (w.getLsbD 32)) := by
  rw [decodeWord, h, bitField_eq_getLsbD w 4]
  rfl

theorem decodeWord_drawVline (h : wordByte w 0 = 0x12) :
    decodeWord w = .ok (.drawVline (byteField w 1) (byteField w 2) (byteField w 3) (w.getLsbD 32)) := by
  rw [decodeWord, h, bitField_eq_getLsbD w 4]
  rfl

theorem decodeWord_drawTriangle (h : wordByte w 0 = 0x13) :
    decodeWord w = .ok (.drawTriangle (byteField w 1) (byteField w 2) (byteField w 3) (byteField w 4)
      (byteField w 5) (byteField w 6) (w.getLsbD 56)) := by
  rw [decodeWord, h, bitField_eq_getLsbD w 7]
  rfl

end

end Sys2Proof

namespace Sys2Proof.Machine

/-! ## One iteration of the loop, and `k` of them -/

theorem lineNext_of_ge {dx dy err : Int} (ystep y : Int) (h : 2 * (err + dy) ≥ dx) :
    lineNext dx dy ystep y err = (y + ystep, err + dy - dx) := if_pos h

theorem lineNext_of_lt {dx dy err : Int} (ystep y : Int) (h : 2 * (err + dy) < dx) :
    lineNext dx dy ystep y err = (y, err + dy) := if_neg (not_le.2 h)

/-- After `k` iterations `y` has stepped some `m` times, and `err` has taken `dy` once for each iteration and given `dx`
back once for each step of `y`. -/
theorem lineIter_eq_steps (dx dy ystep y0 : Int) (k : Nat) :
    ∃ m : Nat, lineIter dx dy ystep k (y0, 0) = (y0 + ystep * m, k * dy - m * dx) := by
  induction k with
  | zero => exact ⟨0, by simp [lineIter]⟩
  | succ k ih =>
    obtain ⟨m, hm⟩ := ih
    rw [lineIter_succ, hm]
    by_cases h : 2 * ((k * dy - m * dx) + dy) ≥ dx
    · refine ⟨m + 1, ?_⟩
      rw [lineNext_of_ge _ _ h]
      push_cast
      ext <;> ring
    · refine ⟨m, ?_⟩
      rw [lineNext_of_lt _ _ (not_le.1 h)]
      push_cast
      ext <;> ring

section
variable {dx dy : Nat} (ystep y0 : Int) (hdy : dy ≤ dx) (hdx : 1 ≤ dx)
include hdy hdx

/-- The error is back in its bounds after each iteration (R77). -/
theorem lineIter_err_bounds (k : Nat) :
    -(dx : Int) ≤ 2 * (lineIter dx dy ystep k (y0, 0)).2 ∧ 2 * (lineIter dx dy ystep k (y0, 0)).2 < dx := by
  induction k with
  | zero => simp only [lineIter]; omega
  | succ k ih =>
    rw [lineIter_succ]
    generalize lineIter dx dy ystep k (y0, 0) = p at ih ⊢
    by_cases h : 2 * (p.2 + dy) ≥ dx
    · rw [lineNext_of_ge _ _ h]
      dsimp only
      omega
    · rw [lineNext_of_lt _ _ (not_le.1 h)]
      dsimp only
      omega

/-- The error's bounds pin the number `m` of steps of `y` after `k` iterations: `2*m*dx` is within `dx` of `2*k*dy`. -/
theorem lineIter_eq_steps_bounds (k : Nat) :
    ∃ m : Nat, (lineIter dx dy ystep k (y0, 0)).1 = y0 + ystep * m ∧
      2 * m * dx ≤ 2 * k * dy + dx ∧ 2 * k * dy < 2 * m * dx + dx := by
  obtain ⟨hlo, hhi⟩ := lineIter_err_bounds ystep y0 hdy hdx k
  obtain ⟨m, hm⟩ := lineIter_eq_steps dx dy ystep y0 k
  rw [hm] at hlo hhi
  refine ⟨m, by rw [hm], ?_, ?_⟩ <;> zify <;> linarith

end

section
variable {dx dy : Nat} (ystep y0 : Int) (hdy : dy ≤ dx)
include hdy

/-- Up to the last iteration `y` steps at most `dy` times (R76). -/
theorem lineIter_eq_steps_le {k : Nat} (hk : k ≤ dx) :
    ∃ m : Nat, m ≤ dy ∧ (lineIter dx dy ystep k (y0, 0)).1 = y0 + ystep * m := by
  obtain rfl | hdx := Nat.eq_zero_or_pos dx
  · obtain rfl := Nat.le_zero.1 hk
    exact ⟨0, Nat.zero_le _, by simp [lineIter]⟩
  · obtain ⟨m, hy, hlo, -⟩ := lineIter_eq_steps_bounds ystep y0 hdy hdx k
    refine ⟨m, ?_, hy⟩
    have hkdy : k * dy ≤ dx * dy := Nat.mul_le_mul_right dy hk
    by_contra hm
    have hmdx : (dy + 1) * dx ≤ m * dx := Nat.mul_le_mul_right dx (not_le.1 hm)
    nlinarith

/-- The last iteration leaves `y` at the minor coordinate of the excluded end (R76). -/
theorem lineIter_last : (lineIter dx dy ystep dx (y0, 0)).1 = y0 + ystep * dy := by
  obtain rfl | hdx := Nat.eq_zero_or_pos dx
  · obtain rfl := Nat.le_zero.1 hdy
    simp [lineIter]
  · obtain ⟨m, hy, hlo, hhi⟩ := lineIter_eq_steps_bounds ystep y0 hdy hdx dx
    have hle : 2 * m ≤ 2 * dy + 1 := Nat.le_of_mul_le_mul_right (by linarith) hdx
    have hlt : 2 * dy < 2 * m + 1 := Nat.lt_of_mul_lt_mul_right (a := dx) (by linarith)
    rw [hy, show m = dy by omega]

end

/-! ## The segment that the loop runs over -/

/-- The number of iterations for a line between the ends of a segment: `dx` of R74. -/
def Segment.run (g : Segment) : Nat := g.major.x1 - g.major.x0

/-- `y` and `err` of the loop over a segment after `k` iterations, from the segment's first minor coordinate and a zero
error (R74). -/
def Segment.iterate (g : Segment) (k : Nat) : Int × Int :=
  lineIter (g.x1 - g.x0 : Nat) (absdiff g.y1 g.y0) g.ystep k (g.y0, 0)

/-- The point that iteration `k` plots on a line between the ends of a segment (R74). -/
def Segment.point (g : Segment) (k : Nat) : Nat × Nat :=
  if g.steep then ((g.major.iterate k).1.toNat, g.major.x0 + k)
  else (g.major.x0 + k, (g.major.iterate k).1.toNat)

theorem Segment.point_of_steep {g : Segment} (h : g.steep = true) (k : Nat) :
    g.point k = ((g.major.iterate k).1.toNat, g.major.x0 + k) := if_pos h

theorem Segment.point_of_not_steep {g : Segment} (h : g.steep = false) (k : Nat) :
    g.point k = (g.major.x0 + k, (g.major.iterate k).1.toNat) := if_neg (by simp [h])

theorem Segment.iterate_succ (g : Segment) (k : Nat) :
    g.iterate (k + 1) = lineNext (g.x1 - g.x0 : Nat) (absdiff g.y1 g.y0) g.ystep (g.iterate k).1
      (g.iterate k).2 := lineIter_succ _ _ _ _ _

theorem Segment.ystep_of_flat {g : Segment} (h : absdiff g.y1 g.y0 = 0) : g.ystep = -1 := by
  unfold absdiff at h
  exact if_neg (by omega)

/-- The loop runs from the smaller to the larger major coordinate of the given ends, and its minor ends are, in some
order, their minor coordinates (R74). -/
theorem Segment.major_ends (x0 y0 x1 y1 : Nat) {g : Segment} (hg : (Segment.mk x0 y0 x1 y1).major = g) :
    (absdiff y1 y0 > absdiff x1 x0 ∧ (Segment.mk x0 y0 x1 y1).steep = true ∧
      g.x0 = min y0 y1 ∧ g.x1 = max y0 y1 ∧ min g.y0 g.y1 = min x0 x1 ∧ max g.y0 g.y1 = max x0 x1) ∨
    (absdiff y1 y0 ≤ absdiff x1 x0 ∧ (Segment.mk x0 y0 x1 y1).steep = false ∧
      g.x0 = min x0 x1 ∧ g.x1 = max x0 x1 ∧ min g.y0 g.y1 = min y0 y1 ∧ max g.y0 g.y1 = max y0 y1) := by
  obtain ⟨hd, hs, ⟨h, hm⟩ | ⟨h, hm⟩⟩ | ⟨hd, hs, ⟨h, hm⟩ | ⟨h, hm⟩⟩ := Segment.major_cases x0 y0 x1 y1 <;>
    obtain rfl := hm.symm.trans hg
  · exact .inl ⟨hd, hs, by dsimp only; omega⟩
  · exact .inl ⟨hd, hs, by dsimp only; omega⟩
  · exact .inr ⟨hd, hs, by dsimp only; omega⟩
  · exact .inr ⟨hd, hs, by dsimp only; omega⟩

theorem Segment.major_x0_le_x1 (g : Segment) : g.major.x0 ≤ g.major.x1 := by
  obtain ⟨x0, y0, x1, y1⟩ := g
  have hends := Segment.major_ends x0 y0 x1 y1 rfl
  omega

/-- The swaps make the larger difference the major one (R75). -/
theorem Segment.run_eq_max (x0 y0 x1 y1 : Nat) :
    (Segment.mk x0 y0 x1 y1).run = max (absdiff x1 x0) (absdiff y1 y0) := by
  have hends := Segment.major_ends x0 y0 x1 y1 rfl
  unfold Segment.run
  unfold absdiff at *
  omega

/-- The swaps leave the smaller difference to the minor coordinate (R76). -/
theorem Segment.major_rise_le_run (g : Segment) : absdiff g.major.y1 g.major.y0 ≤ g.run := by
  obtain ⟨x0, y0, x1, y1⟩ := g
  have hends := Segment.major_ends x0 y0 x1 y1 rfl
  unfold Segment.run
  unfold absdiff at *
  omega

/-- The minor coordinate stays between those of the segment's ends (R76). -/
theorem Segment.iterate_between (g : Segment) {k : Nat} (hk : k ≤ g.run) :
    (min g.major.y0 g.major.y1 : Nat) ≤ (g.major.iterate k).1 ∧
      (g.major.iterate k).1 ≤ (max g.major.y0 g.major.y1 : Nat) := by
  obtain ⟨m, hm, hy⟩ := lineIter_eq_steps_le g.major.ystep g.major.y0 g.major_rise_le_run hk
  have hy : (g.major.iterate k).1 = g.major.y0 + g.major.ystep * m := hy
  unfold absdiff at hm
  rw [hy, Segment.ystep]
  by_cases h : g.major.y0 < g.major.y1
  · rw [if_pos h]
    omega
  · rw [if_neg h]
    omega

section
variable (x0 y0 x1 y1 : Nat)

theorem Segment.steep_swap : (Segment.mk x1 y1 x0 y0).steep = (Segment.mk x0 y0 x1 y1).steep := by
  simp only [Segment.steep, absdiff]
  exact decide_eq_decide.2 (by omega)

variable {x0 y0 x1 y1} in
theorem Segment.swapEnds_swap (h : x0 = x1 → y0 = y1) :
    (Segment.mk x1 y1 x0 y0).swapEnds = (Segment.mk x0 y0 x1 y1).swapEnds := by
  unfold Segment.swapEnds
  obtain hlt | rfl | hgt := lt_trichotomy x0 x1
  · rw [if_pos hlt, if_neg (not_lt.2 hlt.le)]
  · rw [h rfl]
  · rw [if_neg (not_lt.2 hgt.le), if_pos hgt]

/-- The swaps give one segment for both orders of the ends (R74): ends with equal major coordinates are equal. -/
theorem Segment.major_swap : (Segment.mk x1 y1 x0 y0).major = (Segment.mk x0 y0 x1 y1).major := by
  unfold Segment.major Segment.swapRoles
  rw [Segment.steep_swap]
  cases hs : (Segment.mk x0 y0 x1 y1).steep with
  | true =>
    have hd : absdiff y1 y0 > absdiff x1 x0 := of_decide_eq_true hs
    have hends : y0 = y1 → x0 = x1 := by unfold absdiff at hd; omega
    exact Segment.swapEnds_swap hends
  | false =>
    have hd : ¬ absdiff y1 y0 > absdiff x1 x0 := of_decide_eq_false hs
    have hends : x0 = x1 → y0 = y1 := by unfold absdiff at hd; omega
    exact Segment.swapEnds_swap hends

variable {x0 y0 x1 y1} (h : absdiff x1 x0 ≠ absdiff y1 y0)
include h

theorem Segment.steep_exchange :
    (Segment.mk y0 x0 y1 x1).steep = !(Segment.mk x0 y0 x1 y1).steep := by
  unfold Segment.steep
  rw [← decide_not]
  exact decide_eq_decide.2 (by dsimp only; omega)

theorem Segment.major_exchange : (Segment.mk y0 x0 y1 x1).major = (Segment.mk x0 y0 x1 y1).major := by
  unfold Segment.major Segment.swapRoles
  rw [Segment.steep_exchange h]
  cases (Segment.mk x0 y0 x1 y1).steep <;> rfl

end

/-! ## The points of a line -/

section
variable (x0 y0 x1 y1 : Nat)

theorem linePoints_length : (linePoints x0 y0 x1 y1).length = (Segment.mk x0 y0 x1 y1).run :=
  lineLoop_length ..

theorem linePoints_getElem? {k : Nat} (hk : k < (Segment.mk x0 y0 x1 y1).run) :
    (linePoints x0 y0 x1 y1)[k]? = some ((Segment.mk x0 y0 x1 y1).point k) :=
  lineLoop_getElem? _ _ _ _ _ _ _ hk

variable {x0 y0 x1 y1}

theorem linePoints_getElem?_eq_some {k : Nat} {p : Nat × Nat}
    (h : (linePoints x0 y0 x1 y1)[k]? = some p) :
    k < (Segment.mk x0 y0 x1 y1).run ∧ p = (Segment.mk x0 y0 x1 y1).point k := by
  have hk : k < (Segment.mk x0 y0 x1 y1).run := by
    rw [← linePoints_length]
    exact (List.getElem?_eq_some_iff.1 h).1
  rw [linePoints_getElem? _ _ _ _ hk] at h
  exact ⟨hk, (Option.some.inj h).symm⟩

theorem mem_linePoints {p : Nat × Nat} : p ∈ linePoints x0 y0 x1 y1 ↔
    ∃ k, k < (Segment.mk x0 y0 x1 y1).run ∧ p = (Segment.mk x0 y0 x1 y1).point k := mem_lineLoop ..

end

theorem linePoints_self (x y : Nat) : linePoints x y x y = [] := by
  apply List.eq_nil_of_length_eq_zero
  rw [linePoints_length, Segment.run_eq_max]
  simp [absdiff]

theorem linePoints_swap (x0 y0 x1 y1 : Nat) : linePoints x1 y1 x0 y0 = linePoints x0 y0 x1 y1 := by
  simp only [linePoints, Segment.major_swap x0 y0 x1 y1, Segment.steep_swap x0 y0 x1 y1]

/-- Exchanging the axes exchanges the coordinates of a line's points, unless the line is diagonal: there neither form is
steep, and the loop runs over x in both (R74). -/
theorem mem_linePoints_exchange {x0 y0 x1 y1 px py : Nat} (h : absdiff x1 x0 ≠ absdiff y1 y0) :
    (py, px) ∈ linePoints y0 x0 y1 x1 ↔ (px, py) ∈ linePoints x0 y0 x1 y1 := by
  simp only [mem_linePoints, Segment.run, Segment.point, Segment.major_exchange h, Segment.steep_exchange h]
  cases (Segment.mk x0 y0 x1 y1).steep <;> simp [and_comm]

/-! ## Rows and columns -/

theorem Segment.iterate_of_flat (g : Segment) (hflat : g.major.y0 = g.major.y1) {k : Nat} (hk : k ≤ g.run) :
    (g.major.iterate k).1.toNat = g.major.y0 := by
  have hy := g.iterate_between hk
  omega

/-- The points of a row: every one from the smaller end up to the larger, which is excluded. -/
theorem mem_linePoints_row {x e y px py : Nat} :
    (px, py) ∈ linePoints x y e y ↔ py = y ∧ min x e ≤ px ∧ px < max x e := by
  obtain ⟨hd, -⟩ | ⟨-, hs, hx0, hx1, hmin, hmax⟩ := Segment.major_ends x y e y rfl
  · simp [absdiff] at hd
  have hrun : (Segment.mk x y e y).run = max x e - min x e := by rw [Segment.run, hx0, hx1]
  have hpoint (k : Nat) (hk : k < (Segment.mk x y e y).run) :
      (Segment.mk x y e y).point k = (min x e + k, y) := by
    rw [Segment.point_of_not_steep hs, Segment.iterate_of_flat _ (by omega) hk.le, hx0, Prod.mk.injEq]
    omega
  rw [mem_linePoints]
  constructor
  · rintro ⟨k, hk, hp⟩
    rw [hpoint k hk, Prod.mk.injEq] at hp
    omega
  · rintro ⟨rfl, hlo, hhi⟩
    have hk : px - min x e < (Segment.mk x py e py).run := by omega
    refine ⟨px - min x e, hk, ?_⟩
    rw [hpoint _ hk, Nat.add_sub_cancel' hlo]

/-- The points of a column, as those of a row with the axes exchanged. -/
theorem mem_linePoints_column {x y e px py : Nat} :
    (px, py) ∈ linePoints x y x e ↔ px = x ∧ min y e ≤ py ∧ py < max y e := by
  obtain rfl | hne := eq_or_ne e y
  · simp only [linePoints_self, List.not_mem_nil, false_iff]
    omega
  · rw [mem_linePoints_exchange (by unfold absdiff; omega), mem_linePoints_row]

@[simp] theorem lineEnd_one {start : Nat} (h : start < 256) : lineEnd start 1 = start := by
  unfold lineEnd
  omega

/-- The saturation of the end at 255 changes no point with a coordinate below 255 (R79, R80). -/
theorem between_lineEnd_iff {start len n : Nat} (hlen : len ≠ 0) (hn : n < 255) :
    min start (lineEnd start len) ≤ n ∧ n < max start (lineEnd start len) ↔
      start ≤ n ∧ n + 1 < start + len := by
  unfold lineEnd
  omega

/-! ## Plotting -/

theorem line_self (x y : Nat) (c : Bool) (fb : Framebuffer) : line x y x y c fb = fb := by
  rw [line, linePoints_self, plotAll_nil]

theorem plotAll_append (c : Bool) (ps qs : List (Nat × Nat)) (fb : Framebuffer) :
    plotAll c (ps ++ qs) fb = plotAll c qs (plotAll c ps fb) := List.foldl_append

/-! ## The statements -/

/-- Settles O56: `y` and `err` are those of `Segment.iterate`, and an iteration is `lineNext`. -/
theorem linePointsFollowTheLoop : Obligations.LinePointsFollowTheLoop := by
  rintro x0 y0 x1 y1 _ _ _ g rfl rfl rfl hg
  obtain rfl : g = (Segment.mk x0 y0 x1 y1).major := hg
  refine ⟨fun _ _ => rfl, rfl, linePoints_length x0 y0 x1 y1,
    fun k => ((Segment.mk x0 y0 x1 y1).major.iterate k).1,
    fun k => ((Segment.mk x0 y0 x1 y1).major.iterate k).2,
    fun k hk => linePoints_getElem? x0 y0 x1 y1 hk, fun k hk => ⟨?_, rfl⟩, rfl, rfl,
    fun k => ⟨fun h => ?_, fun h => ?_⟩⟩
  · exact (Int.natCast_nonneg _).trans ((Segment.mk x0 y0 x1 y1).iterate_between hk.le).1
  · dsimp only
    rw [Segment.iterate_succ, lineNext_of_ge _ _ h]
    exact ⟨rfl, rfl⟩
  · dsimp only
    rw [Segment.iterate_succ, lineNext_of_lt _ _ h]
    exact ⟨rfl, rfl⟩

/-- Settles O20: the count is `Segment.run`, and point `k` is `Segment.point`. -/
theorem lineExcludesLargerEnd : Obligations.LineExcludesLargerEnd := by
  intro x0 y0 x1 y1
  refine ⟨?_, (linePoints_length ..).trans (Segment.run_eq_max ..), ?_, linePoints_self x0 y0⟩
  · rintro k p _ hp rfl
    obtain ⟨-, rfl⟩ := linePoints_getElem?_eq_some hp
    obtain ⟨hd, hs, -⟩ | ⟨hd, hs, -⟩ := Segment.major_cases x0 y0 x1 y1
    · rw [if_pos hd, Segment.point_of_steep hs]
      rfl
    · rw [if_neg (not_lt.2 hd), Segment.point_of_not_steep hs]
      rfl
  · intro k p hp
    obtain ⟨hk, rfl⟩ := linePoints_getElem?_eq_some hp
    unfold Segment.run at hk
    obtain ⟨hd, hs, hx0, hx1, -⟩ | ⟨hd, hs, hx0, hx1, -⟩ := Segment.major_ends x0 y0 x1 y1 rfl
    · rw [Segment.point_of_steep hs]
      dsimp only
      omega
    · rw [Segment.point_of_not_steep hs]
      dsimp only
      omega

/-- Settles O21: by the number of steps that `y` makes, `lineIter_eq_steps_le` and `lineIter_last`. -/
theorem lineMinorStaysInRange : Obligations.LineMinorStaysInRange := by
  refine ⟨fun g => ⟨g.major_rise_le_run, g.major_x0_le_x1, Segment.ystep_of_flat⟩,
    fun dx dy ystep y0 hdy _ => ⟨fun k hk => lineIter_eq_steps_le ystep y0 hdy hk,
      lineIter_last ystep y0 hdy⟩, fun x0 y0 x1 y1 p hp => ?_⟩
  obtain ⟨k, hk, rfl⟩ := mem_linePoints.1 hp
  have hy := (Segment.mk x0 y0 x1 y1).iterate_between hk.le
  unfold Segment.run at hk
  obtain ⟨hd, hs, hends⟩ | ⟨hd, hs, hends⟩ := Segment.major_ends x0 y0 x1 y1 rfl
  · rw [Segment.point_of_steep hs]
    dsimp only
    omega
  · rw [Segment.point_of_not_steep hs]
    dsimp only
    omega

/-- Settles O22: the bounds after an iteration are `lineIter_err_bounds`, and `dy <= dx` gives those before its
adjustment. -/
theorem lineErrorIsBounded : Obligations.LineErrorIsBounded := by
  refine ⟨fun dx dy ystep y0 k hdy hdx => ?_, rfl⟩
  obtain ⟨hlo, hhi⟩ := lineIter_err_bounds ystep y0 hdy hdx k
  refine ⟨hlo, hhi, by omega, fun hdx' err herr => ?_⟩
  have herr : -765 ≤ 2 * err ∧ 2 * err ≤ 765 := by omega
  exact ⟨herr.1, herr.2, BitVec.toInt_ofInt_eq_self (by decide) (by omega) (by omega),
    BitVec.toInt_ofInt_eq_self (by decide) (by omega) (by omega)⟩

/-- Settles O23: both orders of the ends give the loop the same segment. -/
theorem lineEndpointOrderIsIrrelevant : Obligations.LineEndpointOrderIsIrrelevant := linePoints_swap

/-- Settles O19: by the law of a line's pixels, `pixel_line`. -/
theorem drawLinePlotsLinePoints : Obligations.DrawLinePlotsLinePoints :=
  ⟨fun _ h => decodeWord_drawLine h, fun x0 y0 x1 y1 c s => ⟨_, rfl, rfl, line_draw x0 y0 x1 y1 c s.fb,
    fun _ _ hpx hpy => pixel_line x0 y0 x1 y1 c s.fb hpx hpy⟩⟩

/-- Settles O24: a length but 0 draws a row, whose points on the display the saturated end leaves as they are. -/
theorem drawHlinePlotsRow : Obligations.DrawHlinePlotsRow := by
  refine ⟨fun _ h => decodeWord_drawHline h, fun x y w c s => ?_⟩
  obtain rfl | hw := eq_or_ne w 0
  · refine ⟨s, rfl, rfl, rfl, fun _ _ => rfl, fun px py _ _ => (if_neg ?_).symm⟩
    omega
  · refine ⟨_, if_neg hw, rfl, line_draw .., fun hw1 hx => ?_, fun px py hpx hpy => ?_⟩
    · obtain rfl : w = 1 := by omega
      dsimp only
      rw [lineEnd_one hx, line_self]
    · simp only [pixel_line _ _ _ _ _ _ hpx hpy, mem_linePoints_row,
        between_lineEnd_iff hw (show px < 255 by omega)]

/-- Settles O25: as for a row, with a column's points. -/
theorem drawVlinePlotsColumn : Obligations.DrawVlinePlotsColumn := by
  refine ⟨fun _ h => decodeWord_drawVline h, fun x y h c s => ?_⟩
  obtain rfl | hh := eq_or_ne h 0
  · refine ⟨s, rfl, rfl, rfl, fun _ _ => rfl, fun px py _ _ => (if_neg ?_).symm⟩
    omega
  · refine ⟨_, if_neg hh, rfl, line_draw .., fun hh1 hy => ?_, fun px py hpx hpy => ?_⟩
    · obtain rfl : h = 1 := by omega
      dsimp only
      rw [lineEnd_one hy, line_self]
    · simp only [pixel_line _ _ _ _ _ _ hpx hpy, mem_linePoints_column,
        between_lineEnd_iff hh (show py < 255 by omega)]

/-- Settles O26: the three sides' points are plotted one after the other, as one list. -/
theorem drawTrianglePlotsThreeSides : Obligations.DrawTrianglePlotsThreeSides := by
  refine ⟨fun _ h => decodeWord_drawTriangle h, fun x1 y1 x2 y2 x3 y3 c s =>
    ⟨_, rfl, rfl, by simp only [line_draw], rfl, fun px py hpx hpy => ?_⟩⟩
  simp only [line, ← plotAll_append, pixel_plotAll _ _ _ hpx hpy, List.mem_append, or_assoc]

end Sys2Proof.Machine
end

section
/-! The words of the four text commands, what a blit and a glyph byte leave, the walk of the text cursor, the part's
newline parameter, and the statements of 42_glyph_blit.md (rules R82 to R89). -/

namespace Sys2Proof

/-! ## Decoding by the opcode byte -/

section
variable {w : BitVec 64}

theorem decodeWord_drawChar (h : wordByte w 0 = 0x20) :
    decodeWord w = .ok (.drawChar (byteField w 1) (byteField w 2) (byteField w 3)) := by
  rw [decodeWord, h]
  rfl

theorem decodeWord_writeByte (h : wordByte w 0 = 0x21) :
    decodeWord w = .ok (.writeByte (byteField w 1)) := by
  rw [decodeWord, h]
  rfl

theorem decodeWord_setCursor (h : wordByte w 0 = 0x22) :
    decodeWord w = .ok (.setCursor (byteField w 1) (byteField w 2)) := by
  rw [decodeWord, h]
  rfl

theorem decodeWord_setTextAttr (h : wordByte w 0 = 0x23) :
    decodeWord w = .ok (.setTextAttr (byteField w 1) (w.getLsbD 16)) := by
  rw [decodeWord, h, bitField_eq_getLsbD w 2]
  rfl

end

theorem operandBit_toNat (b : Bool) : (operandBit b).toNat = if b then 1 else 0 := by
  cases b <;> rfl

end Sys2Proof

namespace Sys2Proof.Machine

/-! ## The blit -/

section
variable {x y code : Nat} (color : Bool) (fb : Framebuffer)

theorem drawChar_of_font {g : Config.Glyph} (hfit : glyphFits x y = true) (hg : font code = some g) :
    drawChar color x y code fb = blitColumns (y / 8) x (g.columns.map (glyphCell color)) fb := by
  rw [drawChar, if_pos hfit, hg]

theorem nextX_of_font {g : Config.Glyph} (hfit : glyphFits x y = true) (hg : font code = some g) :
    nextX x y code = x + 6 := by
  simp [nextX, hfit, hg]

theorem blank_of_out_of_range (h : 48 ≤ y ∨ 84 ≤ x + 5 ∨ code < 0x20 ∨ 0xB3 < code) :
    glyphFits x y = false ∨ font code = none := by
  by_cases hcode : 0x20 ≤ code ∧ code ≤ 0xB3
  · refine .inl (Bool.eq_false_iff.2 fun hfit => ?_)
    have := glyphFits_iff.1 hfit
    omega
  · exact .inr (font_eq_none hcode)

theorem drawChar_of_blank (h : glyphFits x y = false ∨ font code = none) :
    drawChar color x y code fb = fb := by
  obtain hfit | hfont := h
  · simp [drawChar, hfit]
  · simp [drawChar, hfont]

theorem nextX_of_blank (h : glyphFits x y = false ∨ font code = none) : nextX x y code = x := by
  obtain hfit | hfont := h
  · simp [nextX, hfit]
  · simp [nextX, hfont]

theorem getD_map_glyphCell (g : Config.Glyph) {k : Nat} (hk : k < 5) :
    (g.columns.map (glyphCell color)).getD k 0 = glyphCell color (g.columns.getD k 0) := by
  have hlen : k < g.columns.length := hk
  rw [List.getD_eq_getElem _ _ (by rwa [List.length_map]), List.getD_eq_getElem _ _ hlen, List.getElem_map]

/-- All that drawing a glyph does to a cell: five cells of one page take the glyph's bytes (R82). -/
theorem cell_drawChar_of_font {g : Config.Glyph} (hfit : glyphFits x y = true) (hg : font code = some g)
    (p : Nat) {c : Nat} (hc : c < 84) :
    (drawChar color x y code fb).cell p c
      = if p = y / 8 ∧ x ≤ c ∧ c < x + 5 then glyphCell color (g.columns.getD (c - x) 0)
        else fb.cell p c := by
  have hx : x + (g.columns.map (glyphCell color)).length ≤ 84 := (glyphFits_iff.1 hfit).2.le
  rw [drawChar_of_font color fb hfit hg, cell_blitColumns _ _ _ _ hx hc, glyph_columns_length]
  split
  · exact getD_map_glyphCell color g (by omega)
  · rfl

end

/-! ## The cursor after one byte -/

theorem newlineY_toNat (wraps : Bool) (y size : Nat) :
    (newlineY wraps y size).toNat
      = if wraps = true ∧ 48 ≤ y + 8 * size then 0 else (y + 8 * size) % 256 := by
  simp only [newlineY, Bool.and_eq_true, decide_eq_true_eq, ge_iff_le, Config.height]
  split
  · rfl
  · exact BitVec.toNat_ofNat _ _

theorem advance_of_lt {x size : Nat} (y : Nat) (h : x + 6 * size < 79) :
    advance x y size = (x + 6 * size, if 48 ≤ y then 0 else y) := by
  simp [advance, Nat.not_le.2 h]

theorem advance_of_ge {x size : Nat} (y : Nat) (h : 79 ≤ x + 6 * size) :
    advance x y size = (0, if 48 ≤ y + 8 then 0 else y + 8) := by
  simp [advance, h]

theorem writeByte_newline (s : State) :
    writeByte 0x0A s = { s with
      cursorX := 0x00, cursorY := newlineY s.newlineWrapsY s.cursorY.toNat s.textSize.toNat } := rfl

theorem writeByte_carriageReturn (s : State) : writeByte 0x0D s = s := rfl

section
variable {b : Nat} (hn : b ≠ 0x0A) (hr : b ≠ 0x0D) (s : State)
include hn hr

theorem writeByte_glyph :
    writeByte b s = { s with
      fb := drawChar s.color s.cursorX.toNat s.cursorY.toNat b s.fb
      cursorX := BitVec.ofNat 8 (advance s.cursorX.toNat s.cursorY.toNat s.textSize.toNat).1
      cursorY := BitVec.ofNat 8 (advance s.cursorX.toNat s.cursorY.toNat s.textSize.toNat).2 } :=
  (if_neg hn).trans (if_neg hr)

/-- The cursor advances along its row: only the bottom wrap can apply (R84). -/
theorem cursor_writeByte_of_lt (h : s.cursorX.toNat + 6 * s.textSize.toNat < 79) :
    (writeByte b s).cursorX.toNat = s.cursorX.toNat + 6 * s.textSize.toNat ∧
      (writeByte b s).cursorY.toNat = if 48 ≤ s.cursorY.toNat then 0 else s.cursorY.toNat := by
  rw [writeByte_glyph hn hr, advance_of_lt _ h]
  simp only [BitVec.toNat_ofNat]
  split <;> omega

/-- The cursor leaves its row: both wraps apply in turn (R84). -/
theorem cursor_writeByte_of_ge (h : 79 ≤ s.cursorX.toNat + 6 * s.textSize.toNat) :
    (writeByte b s).cursorX.toNat = 0 ∧
      (writeByte b s).cursorY.toNat = if 48 ≤ s.cursorY.toNat + 8 then 0 else s.cursorY.toNat + 8 := by
  rw [writeByte_glyph hn hr, advance_of_ge _ h]
  refine ⟨rfl, ?_⟩
  simp only [BitVec.toNat_ofNat]
  split <;> omega

theorem textSize_writeByte_glyph : (writeByte b s).textSize = s.textSize := by
  rw [writeByte_glyph hn hr]

end

/-! ## The walk of the cursor at size 1 -/

/-- Where the text cursor stands after `n` glyph bytes at size 1 from (0, 0): 14 glyphs a row, 6 rows (R89). One glyph
byte leads from `n` to `n + 1` (`CursorWalked.after_writeByte`). -/
structure CursorWalked (n : Nat) (s : State) : Prop where
  size : s.textSize = 0x01
  column : s.cursorX.toNat = 6 * (n % 14)
  row : s.cursorY.toNat = 8 * (n / 14 % 6)

theorem CursorWalked.after_writeByte {n b : Nat} {s : State} (h : CursorWalked n s) (hn : b ≠ 0x0A)
    (hr : b ≠ 0x0D) : CursorWalked (n + 1) (writeByte b s) := by
  obtain ⟨hsize, hx, hy⟩ := h
  have hone : s.textSize.toNat = 1 := by rw [hsize]; rfl
  obtain hlt | hge := Nat.lt_or_ge (s.cursorX.toNat + 6 * s.textSize.toNat) 79
  · obtain ⟨hx', hy'⟩ := cursor_writeByte_of_lt hn hr s hlt
    refine ⟨(textSize_writeByte_glyph hn hr s).trans hsize, by omega, ?_⟩
    rw [hy', if_neg (by omega)]
    omega
  · obtain ⟨hx', hy'⟩ := cursor_writeByte_of_ge hn hr s hge
    refine ⟨(textSize_writeByte_glyph hn hr s).trans hsize, by omega, ?_⟩
    rw [hy']
    split <;> omega

theorem execAll_cons {i : Instr} {s t : State} (h : exec i s = .next t) (is : List Instr) :
    execAll (i :: is) s = execAll is t := by
  rw [execAll, h]

theorem CursorWalked.execAll_writeByte {bs : List Nat} (hbs : ∀ b ∈ bs, b ≠ 0x0A ∧ b ≠ 0x0D) {n : Nat}
    {s : State} (h : CursorWalked n s) :
    ∃ t, execAll (bs.map Instr.writeByte) s = .next t ∧ CursorWalked (n + bs.length) t := by
  induction bs generalizing n s with
  | nil => exact ⟨s, rfl, h⟩
  | cons b bs ih =>
    obtain ⟨⟨hn, hr⟩, hbs⟩ := List.forall_mem_cons.1 hbs
    obtain ⟨t, hrun, ht⟩ := ih hbs (h.after_writeByte hn hr)
    rw [List.map_cons, execAll_cons (t := writeByte b s) rfl, List.length_cons,
      Nat.add_comm bs.length, ← Nat.add_assoc]
    exact ⟨t, hrun, ht⟩

/-! ## The newline parameter -/

/-- Emitting commutes with any change of the state that the agent's answer, the events and the rest of the command
do not see. -/
theorem emitThen_update {f : State → State} {items : List ByteEvent} {rest : State → State} {s t : State}
    (hagent : (f s).agent = s.agent) (haccept : ∀ es, (f s).accept es = f (s.accept es))
    (hstall : ∀ es, (f s).stall es = f (s.stall es)) (hrest : ∀ u, rest (f u) = f (rest u))
    (h : emitThen items rest s = .next t) : emitThen items rest (f s) = .next (f t) := by
  have hacc : ∀ n, (f s).agentAccepts n = s.agentAccepts n := fun n => by
    simp only [State.agentAccepts, hagent]
  obtain ⟨ha, rfl⟩ | ⟨ha, rfl⟩ := emitThen_cases h
  · rw [emitThen_of_accepts ((hacc _).trans ha), haccept, hrest]
  · rw [emitThen_of_not_accepts ((hacc _).trans ha), hstall]

/-- A command that needs the ready state commutes with any change that READY and the error do not see. -/
theorem whenReady_update {f : State → State} {run : State → Result} {s t : State}
    (hready : (f s).ready = s.ready) (hraise : raise .notReady (f s) = f (raise .notReady s))
    (hrun : run s = .next t → run (f s) = .next (f t)) (h : whenReady run s = .next t) :
    whenReady run (f s) = .next (f t) := by
  obtain ⟨hr, h⟩ | ⟨hr, rfl⟩ := whenReady_cases h
  · exact (if_pos (hready.trans hr)).trans (hrun h)
  · rw [← hraise]
    exact if_neg (by simp [hready, hr])

/-- The state of a part with another value of P_NEWLINE_WRAPS_Y, which only a newline reads (`exec_withWraps`). -/
def State.withWraps (wraps : Bool) (s : State) : State := { s with newlineWrapsY := wraps }

/-- Every command but a newline does the same on a part with another value of the parameter (R10, R84). -/
theorem exec_withWraps {i : Instr} {s t : State} (wraps : Bool) (hi : i ≠ .writeByte 0x0A)
    (h : exec i s = .next t) : exec i (s.withWraps wraps) = .next (t.withWraps wraps) := by
  cases i with
  | drawHline x y w c =>
    obtain rfl | hw := eq_or_ne w 0
    · rw [← Host.Outcome.next.inj h]
      rfl
    · rw [← Host.Outcome.next.inj ((if_neg hw).symm.trans h)]
      exact if_neg hw
  | drawVline x y w c =>
    obtain rfl | hw := eq_or_ne w 0
    · rw [← Host.Outcome.next.inj h]
      rfl
    · rw [← Host.Outcome.next.inj ((if_neg hw).symm.trans h)]
      exact if_neg hw
  | writeByte b =>
    have hn : b ≠ 0x0A := fun hb => hi (hb ▸ rfl)
    rw [← Host.Outcome.next.inj h]
    obtain rfl | hr := eq_or_ne b 0x0D
    · rfl
    · rw [writeByte_glyph hn hr]
      exact congrArg Host.Outcome.next (writeByte_glyph hn hr _)
  | init c =>
    exact emitThen_update (f := State.withWraps wraps) (rest := fun t => becomeReady (storeContrast c t))
      rfl (fun _ => rfl) (fun _ => rfl) (fun _ => rfl) h
  | setContrast c =>
    exact whenReady_update (f := State.withWraps wraps) rfl rfl
      (emitThen_update rfl (fun _ => rfl) (fun _ => rfl) fun _ => rfl) h
  | flush =>
    exact whenReady_update (f := State.withWraps wraps) rfl rfl
      (emitThen_update (rest := fun t => t) rfl (fun _ => rfl) (fun _ => rfl) fun _ => rfl) h
  | _ => rw [← Host.Outcome.next.inj h]; rfl

theorem exec_newlineWrapsY {i : Instr} {s t : State} (h : exec i s = .next t) :
    t.newlineWrapsY = s.newlineWrapsY := by
  obtain rfl | hi := eq_or_ne i (.writeByte 0x0A)
  · rw [← Host.Outcome.next.inj h]
    rfl
  · have hsame := h.symm.trans (exec_withWraps s.newlineWrapsY hi h)
    rw [Host.Outcome.next.inj hsame]
    rfl

theorem Served.newlineWrapsY {e : HostEvent} {s t : State} (h : Served s e t) :
    t.newlineWrapsY = s.newlineWrapsY := by
  cases h with
  | command i t h => exact exec_newlineWrapsY h
  | _ => rfl

/-! ## The statements -/

/-- Settles O28: the blank cases by `blank_of_out_of_range`, the cells by `cell_drawChar_of_font`. -/
theorem drawCharReplacesFiveCells : Obligations.DrawCharReplacesFiveCells := by
  refine ⟨fun _ h => decodeWord_drawChar h, fun x y code s hx => ⟨_, rfl, rfl, drawChar_draw .., ?_, ?_⟩⟩
  · intro hout
    have hblank := blank_of_out_of_range hout
    exact ⟨drawChar_of_blank _ _ hblank, by rw [nextX_of_blank hblank, BitVec.toNat_ofNat, Nat.mod_eq_of_lt hx]⟩
  · intro hy hx5 hlo hhi
    have hfit : glyphFits x y = true := glyphFits_iff.2 ⟨hy, hx5⟩
    have hg : font code = some (fontGlyph code) := font_eq_some ⟨hlo, hhi⟩
    refine ⟨?_, fontGlyph code, hg, fun p c _ hc => cell_drawChar_of_font _ _ hfit hg p hc⟩
    rw [nextX_of_font hfit hg, BitVec.toNat_ofNat, Nat.mod_eq_of_lt (by omega)]

/-- Settles O29: one equation of `writeByte` for each kind of byte, and the cursor's two ways to advance. -/
theorem writeByteDrawsAndAdvances : Obligations.WriteByteDrawsAndAdvances := by
  refine ⟨fun _ h => decodeWord_writeByte h, fun b s _ => ⟨?_, ?_, fun hn hr => ?_⟩⟩
  · rintro rfl
    exact ⟨_, rfl, writeByte_newline s, newlineY_toNat _ _ _⟩
  · rintro rfl
    exact congrArg Host.Outcome.next (writeByte_carriageReturn s)
  · exact ⟨writeByte b s, _, rfl, rfl, by rw [writeByte_glyph hn hr],
      cursor_writeByte_of_lt hn hr s, cursor_writeByte_of_ge hn hr s⟩

/-- Settles O31: the first law by the cursor's two ways to advance, the second by induction over the bytes
(`CursorWalked.execAll_writeByte`). -/
theorem glyphBytesWalkTheDisplay : Obligations.GlyphBytesWalkTheDisplay := by
  refine ⟨fun b s _ hn hr _ => ⟨writeByte b s, rfl, ?_⟩, fun bs s hbs hsize hx hy => ?_⟩
  · obtain hlt | hge := Nat.lt_or_ge (s.cursorX.toNat + 6 * s.textSize.toNat) 79
    · obtain ⟨hx, hy⟩ := cursor_writeByte_of_lt hn hr s hlt
      exact ⟨by omega, by rw [hy]; split <;> omega⟩
    · obtain ⟨hx, hy⟩ := cursor_writeByte_of_ge hn hr s hge
      exact ⟨by omega, by rw [hy]; split <;> omega⟩
  · have hstart : CursorWalked 0 s := ⟨hsize, by rw [hx]; rfl, by rw [hy]; rfl⟩
    obtain ⟨t, hrun, ht⟩ := hstart.execAll_writeByte fun b hb => (hbs b hb).2
    rw [Nat.zero_add] at ht
    exact ⟨t, hrun, ht.column, ht.row⟩

/-- Settles O57: by `Served.newlineWrapsY` for a step and `exec_withWraps` for a command. -/
theorem newlineParameterIsFixed : Obligations.NewlineParameterIsFixed := by
  refine ⟨rfl, fun s t h => ?_, fun i s t wraps hi h => exec_withWraps wraps hi h⟩
  obtain ⟨-, rfl⟩ | ⟨e, rest, -, hs⟩ := served_of_step h
  · rfl
  · exact hs.newlineWrapsY

/-- Settles O30: an operand byte is the operand, and an operand bit is bit 0 of a byte of zeros. -/
theorem textRegisterStores : Obligations.TextRegisterStores :=
  ⟨fun _ h => decodeWord_setCursor h, fun _ h => decodeWord_setTextAttr h,
    fun _ _ _ hx hy => ⟨_, rfl, rfl, operandByte_toNat hx, operandByte_toNat hy⟩,
    fun _ color _ hsize => ⟨_, rfl, rfl, operandByte_toNat hsize, operandBit_toNat color⟩⟩

end Sys2Proof.Machine
end

section
/-! The words of the three serializer commands, what a byte transfer and a byte-level list send, what a command emits,
and the statements of 43_serializer.md (rules R92 to R99, R103, R104) and of the trace (R30, R90). -/

namespace Sys2Proof

/-! ## Decoding by the opcode byte -/

section
variable {w : BitVec 64}

theorem decodeWord_init (h : wordByte w 0 = 0x30) : decodeWord w = .ok (.init (byteField w 1)) := by
  rw [decodeWord, h]
  rfl

theorem decodeWord_setContrast (h : wordByte w 0 = 0x31) :
    decodeWord w = .ok (.setContrast (byteField w 1)) := by
  rw [decodeWord, h]
  rfl

theorem decodeWord_flush (h : wordByte w 0 = 0x32) : decodeWord w = .ok .flush := by
  rw [decodeWord, h]
  rfl

end

end Sys2Proof

namespace Sys2Proof.Machine

/-! ## One byte transfer -/

/-- The three events that shift out bit `7 - j` of the byte (R92). -/
theorem xferEvents_getElem?_bit (m : Mode) (b : Byte) {j : Nat} (hj : j < 8) :
    (xferEvents m b)[2 + 3 * j]? = some (.set .sdin (b.getLsbD (7 - j))) ∧
    (xferEvents m b)[3 + 3 * j]? = some (.set .sclk true) ∧
    (xferEvents m b)[4 + 3 * j]? = some (.set .sclk false) := by
  interval_cases j <;> exact ⟨rfl, rfl, rfl⟩

/-- A transfer's events tell its mode and its byte. -/
theorem xferEvents_inj {m n : Mode} {b c : Byte} (h : xferEvents m b = xferEvents n c) : m = n ∧ b = c := by
  constructor
  · have hdc : decide (m = .data) = decide (n = .data) := by
      have h0 := congrArg (fun es : List Event => es[0]?) h
      simpa [xferEvents] using h0
    cases m <;> cases n <;> simp_all
  · refine BitVec.eq_of_getLsbD_eq fun k hk => ?_
    have hb := (xferEvents_getElem?_bit m b (j := 7 - k) (by omega)).1
    have hc := (xferEvents_getElem?_bit n c (j := 7 - k) (by omega)).1
    have hbit := hb.symm.trans (h ▸ hc)
    rw [Nat.sub_sub_self (Nat.le_of_lt_succ hk)] at hbit
    simpa using hbit

/-! ## The pin-level events tell the byte-level list (R93) -/

/-- A proper item is read off the front of a list of events: a transfer begins with the mode line, which no proper
item outside a transfer sets. -/
theorem ByteEvent.expand_append_inj {i j : ByteEvent} (hi : i.proper = true) (hj : j.proper = true)
    {es fs : List Event} (h : i.expand ++ es = j.expand ++ fs) : i = j ∧ es = fs := by
  cases i with
  | xfer m b =>
    cases j with
    | xfer n c =>
      obtain ⟨hx, hrest⟩ := List.append_inj h rfl
      obtain ⟨rfl, rfl⟩ := xferEvents_inj hx
      exact ⟨rfl, hrest⟩
    | other e =>
      obtain rfl : Event.set .dc (decide (m = .data)) = e := (List.cons.inj h).1
      cases hj
  | other d =>
    cases j with
    | xfer n c =>
      obtain rfl : d = Event.set .dc (decide (n = .data)) := (List.cons.inj h).1
      cases hi
    | other e =>
      obtain ⟨rfl, hrest⟩ := List.cons.inj h
      exact ⟨rfl, hrest⟩

theorem ByteEvent.expand_ne_nil (i : ByteEvent) : i.expand ≠ [] := by
  cases i <;> simp [ByteEvent.expand, xferEvents]

theorem expandAll_inj {is js : List ByteEvent} (his : is.all ByteEvent.proper = true)
    (hjs : js.all ByteEvent.proper = true) (h : expandAll is = expandAll js) : is = js := by
  induction is generalizing js with
  | nil =>
    cases js with
    | nil => rfl
    | cons j js => simp [ByteEvent.expand_ne_nil] at h
  | cons i is ih =>
    cases js with
    | nil => simp [ByteEvent.expand_ne_nil] at h
    | cons j js =>
      simp only [List.all_cons, Bool.and_eq_true] at his hjs
      obtain ⟨rfl, hrest⟩ := ByteEvent.expand_append_inj his.1 hjs.1 h
      rw [ih his.2 hjs.2 hrest]

/-! ## Counting transfers and other events (R104) -/

theorem transferred_append (is js : List ByteEvent) :
    transferred (is ++ js) = transferred is ++ transferred js := by
  induction is with
  | nil => rfl
  | cons i is ih => cases i <;> simp [transferred, ih]

theorem transferred_length_le (items : List ByteEvent) : (transferred items).length ≤ items.length := by
  induction items with
  | nil => exact Nat.le_refl 0
  | cons i items ih => cases i <;> simp only [transferred, List.length_cons] <;> omega

theorem otherCount_cons_xfer (m : Mode) (b : Byte) (items : List ByteEvent) :
    otherCount (.xfer m b :: items) = otherCount items := by
  simp [otherCount, transferred]

theorem otherCount_cons_other (e : Event) (items : List ByteEvent) :
    otherCount (.other e :: items) = otherCount items + 1 := by
  have := transferred_length_le items
  simp only [otherCount, transferred, List.length_cons]
  omega

theorem transferred_length (items : List ByteEvent) :
    (transferred items).length = transferCount .cmd items + transferCount .data items := by
  induction items with
  | nil => rfl
  | cons i items ih =>
    cases i with
    | xfer m b => cases m <;> simp_all [transferCount, transferred] <;> omega
    | other e => exact ih

/-- A transfer is 27 events, any other item is one (R92, R93). -/
theorem expandAll_length (items : List ByteEvent) :
    (expandAll items).length = 27 * (transferred items).length + otherCount items := by
  induction items with
  | nil => rfl
  | cons i items ih =>
    rw [expandAll_cons, List.length_append, ih]
    cases i with
    | xfer m b =>
      rw [otherCount_cons_xfer, ByteEvent.expand, xferEvents_length, transferred, List.length_cons]
      omega
    | other e =>
      rw [otherCount_cons_other, ByteEvent.expand, transferred, List.length_singleton]
      omega

/-- A byte-level list of `cmds` command transfers, `datas` data transfers and `others` other events. -/
structure Counts (items : List ByteEvent) (cmds datas others : Nat) : Prop where
  cmd : transferCount .cmd items = cmds
  data : transferCount .data items = datas
  other : otherCount items = others

section
variable {is js : List ByteEvent} {a b c a' b' c' : Nat}

theorem Counts.append (h : Counts is a b c) (h' : Counts js a' b' c') :
    Counts (is ++ js) (a + a') (b + b') (c + c') := by
  obtain ⟨rfl, rfl, rfl⟩ := h
  obtain ⟨rfl, rfl, rfl⟩ := h'
  refine ⟨by simp [transferCount, transferred_append], by simp [transferCount, transferred_append], ?_⟩
  have := transferred_length_le is
  have := transferred_length_le js
  simp only [otherCount, transferred_append, List.length_append]
  omega

theorem Counts.length (h : Counts is a b c) : is.length = a + b + c := by
  obtain ⟨rfl, rfl, rfl⟩ := h
  have := transferred_length_le is
  rw [← transferred_length, otherCount]
  omega

theorem Counts.expandAll_length (h : Counts is a b c) : (expandAll is).length = 27 * (a + b) + c := by
  obtain ⟨rfl, rfl, rfl⟩ := h
  rw [Machine.expandAll_length, transferred_length]

end

theorem counts_initItems (c : Nat) : Counts (initItems c) 5 0 4 := ⟨rfl, rfl, rfl⟩

theorem counts_contrastItems (c : Nat) : Counts (contrastItems c) 3 0 0 := ⟨rfl, rfl, rfl⟩

theorem counts_map_data (f : Nat → Byte) (cs : List Nat) :
    Counts (cs.map fun c => .xfer .data (f c)) 0 cs.length 0 := by
  induction cs with
  | nil => exact ⟨rfl, rfl, rfl⟩
  | cons c cs ih =>
    have hone : Counts [.xfer .data (f c)] 0 1 0 := ⟨rfl, rfl, rfl⟩
    rw [List.map_cons, List.length_cons, Nat.add_comm]
    exact hone.append ih

theorem counts_pageItems (fb : Framebuffer) (p : Nat) : Counts (pageItems fb p) 2 84 0 := by
  have haddress : Counts [.xfer .cmd (setYByte p), .xfer .cmd (setXByte 0)] 2 0 0 := ⟨rfl, rfl, rfl⟩
  exact haddress.append (counts_map_data (fb.cell p) (List.range Config.width))

theorem counts_flatMap_pageItems (fb : Framebuffer) (ps : List Nat) :
    Counts (ps.flatMap (pageItems fb)) (2 * ps.length) (84 * ps.length) 0 := by
  induction ps with
  | nil => exact ⟨rfl, rfl, rfl⟩
  | cons p ps ih =>
    rw [List.flatMap_cons, List.length_cons, Nat.mul_add_one, Nat.mul_add_one, Nat.add_comm _ 2,
      Nat.add_comm _ 84]
    exact (counts_pageItems fb p).append ih

theorem counts_flushItems (fb : Framebuffer) : Counts (flushItems fb) 13 504 0 := by
  have hlast : Counts [.xfer .cmd (setYByte 0)] 1 0 0 := ⟨rfl, rfl, rfl⟩
  exact (counts_flatMap_pageItems fb (List.range Config.pages)).append hlast

/-! ## The items of FLUSH by their place (R98) -/

/-- Item `j` of block `k` of blocks of `n` items each. -/
theorem getElem?_flatMap_blocks {α β : Type} {f : α → List β} {n : Nat} (hf : ∀ a, (f a).length = n)
    (as : List α) (k : Nat) {j : Nat} (hj : j < n) :
    (as.flatMap f)[n * k + j]? = as[k]?.bind fun a => (f a)[j]? := by
  induction as generalizing k with
  | nil => rfl
  | cons a as ih =>
    rw [List.flatMap_cons]
    cases k with
    | zero =>
      rw [Nat.mul_zero, Nat.zero_add, List.getElem?_append_left (by rw [hf]; exact hj)]
      rfl
    | succ k =>
      have hle : (f a).length ≤ n * (k + 1) + j := by rw [hf, Nat.mul_add_one]; omega
      rw [List.getElem?_append_right hle, hf, List.getElem?_cons_succ, ← ih k]
      congr 1
      rw [Nat.mul_add_one]
      omega

theorem flushItems_getElem?_page (fb : Framebuffer) {p j : Nat} (hp : p < 6) (hj : j < 86) :
    (flushItems fb)[86 * p + j]? = (pageItems fb p)[j]? := by
  have hpages : ((List.range Config.pages).flatMap (pageItems fb)).length = 516 :=
    (counts_flatMap_pageItems fb _).length
  rw [flushItems, List.getElem?_append_left (by omega),
    getElem?_flatMap_blocks (fun q => (counts_pageItems fb q).length) _ p hj, List.getElem?_range hp]
  rfl

theorem flushItems_getElem?_last (fb : Framebuffer) :
    (flushItems fb)[516]? = some (.xfer .cmd (setYByte 0)) := by
  have hpages : ((List.range Config.pages).flatMap (pageItems fb)).length = 516 :=
    (counts_flatMap_pageItems fb _).length
  rw [flushItems, List.getElem?_append_right (by omega), hpages]
  rfl

theorem pageItems_getElem?_cell (fb : Framebuffer) (p : Nat) {c : Nat} (hc : c < 84) :
    (pageItems fb p)[2 + c]? = some (.xfer .data (fb.cell p c)) := by
  rw [pageItems, List.getElem?_append_right (by simp)]
  simp [hc]

/-! ## The lines after a list of transfers -/

/-- Transfers that end in one of byte `b` leave the levels that this last one leaves (R92). -/
theorem Lines.applyAll_expandAll_xfers {items : List ByteEvent} (h : otherCount items = 0) (m : Mode)
    (b : Byte) (l : Lines) :
    l.applyAll (expandAll (items ++ [.xfer m b]))
      = { l with sdin := b.getLsbD 0, sclk := false, dc := decide (m = .data), sce := true } := by
  induction items generalizing l with
  | nil => exact l.applyAll_xferEvents m b
  | cons i items ih =>
    cases i with
    | xfer n c =>
      rw [otherCount_cons_xfer] at h
      rw [List.cons_append, expandAll_cons, Lines.applyAll_append, ih h, ByteEvent.expand,
        Lines.applyAll_xferEvents]
    | other e =>
      rw [otherCount_cons_other] at h
      cases h

theorem Lines.applyAll_contrastItems (l : Lines) (c : Nat) :
    l.applyAll (expandAll (contrastItems c))
      = { l with sdin := false, sclk := false, dc := false, sce := true } :=
  l.applyAll_expandAll_xfers (items := [.xfer .cmd funcsetExt, .xfer .cmd (vopByte (clamp c))]) rfl
    .cmd funcsetBasic

theorem Lines.applyAll_flushItems (l : Lines) (fb : Framebuffer) :
    l.applyAll (expandAll (flushItems fb))
      = { l with sdin := false, sclk := false, dc := false, sce := true } :=
  l.applyAll_expandAll_xfers (counts_flatMap_pageItems fb _).other .cmd (setYByte 0)

/-- INIT drives every line (R96). -/
theorem Lines.applyAll_initItems (l : Lines) (c : Nat) :
    l.applyAll (expandAll (initItems c))
      = { sdin := false, sclk := false, dc := false, sce := true, rst := true, bl := Config.backlight } := by
  simp [initItems, ByteEvent.expand, Lines.applyAll_append, Lines.applyAll_xferEvents, Lines.apply, Lines.set,
    dispNormal]

/-! ## What a command emits -/

/-- The byte-level list that a command emits, if the agent accepts it (R96 to R98, R104). -/
def emitted (s : State) : Instr → List ByteEvent
  | .init c => initItems c
  | .setContrast c => if s.ready then contrastItems c else []
  | .flush => if s.ready then flushItems s.fb else []
  | _ => []

theorem emitted_of_silent {i : Instr} (s : State) (hi : isSerializer i = false) : emitted s i = [] := by
  cases i with
  | init | setContrast | flush => cases hi
  | _ => rfl

/-- The trace grows by these events, and the lines move by them and by nothing else (R29, R30, R90). -/
structure Emits (s t : State) (es : List Event) : Prop where
  trace : t.trace = s.trace ++ es
  lines : t.lines = s.lines.applyAll es

theorem Emits.nil {s t : State} (htrace : t.trace = s.trace) (hlines : t.lines = s.lines) : Emits s t [] :=
  ⟨by rw [htrace, List.append_nil], hlines⟩

@[simp] theorem agentAccepts_zero (s : State) : s.agentAccepts 0 = true := by
  unfold State.agentAccepts
  split
  · rfl
  · simp

/-- The two ends of an emission: the events all go out, or the command waits for ever with the start of them (R63,
R101). -/
inductive Emission (s : State) (es : List Event) : State → Prop where
  | whole (t : State) (ha : s.agentAccepts es.length = true) (ht : Emits s t es) : Emission s es t
  | waits (ha : s.agentAccepts es.length = false) : Emission s es (s.stall es)

theorem Emission.nil {s t : State} (htrace : t.trace = s.trace) (hlines : t.lines = s.lines) :
    Emission s [] t := .whole t (agentAccepts_zero s) (.nil htrace hlines)

theorem Emission.exists_emits {s t : State} {es : List Event} (h : Emission s es t) : ∃ fs, Emits s t fs := by
  cases h with
  | whole t _ ht => exact ⟨es, ht⟩
  | waits => exact ⟨_, rfl, rfl⟩

section
variable {items : List ByteEvent} {rest : State → State} {s t : State}
  (hrest : ∀ u, (rest u).trace = u.trace ∧ (rest u).lines = u.lines)
include hrest

theorem emission_of_emitThen (h : emitThen items rest s = .next t) : Emission s (expandAll items) t := by
  obtain ⟨ha, rfl⟩ | ⟨ha, rfl⟩ := emitThen_cases h
  · obtain ⟨htrace, hlines⟩ := hrest (s.accept (expandAll items))
    exact .whole _ ha ⟨htrace, hlines⟩
  · exact .waits ha

theorem emission_of_whenReady (h : whenReady (emitThen items rest) s = .next t) :
    Emission s (expandAll (if s.ready then items else [])) t := by
  obtain ⟨hr, h⟩ | ⟨hr, rfl⟩ := whenReady_cases h
  · rw [if_pos hr]
    exact emission_of_emitThen hrest h
  · rw [if_neg (by simp [hr])]
    exact .nil rfl rfl

end

/-- What every command emits (R104). -/
theorem exec_emission {i : Instr} {s t : State} (h : exec i s = .next t) :
    Emission s (expandAll (emitted s i)) t := by
  cases i with
  | init c =>
    exact emission_of_emitThen (rest := fun t => becomeReady (storeContrast c t)) (fun _ => ⟨rfl, rfl⟩) h
  | setContrast c => exact emission_of_whenReady (rest := storeContrast c) (fun _ => ⟨rfl, rfl⟩) h
  | flush => exact emission_of_whenReady (fun _ => ⟨rfl, rfl⟩) h
  | _ =>
    rw [exec_frame_of_silent (by simp) (by simp) (by simp) h]
    exact .nil rfl rfl

/-- No event but a block reset takes anything off the trace, and only a command adds to it. -/
theorem Served.emits {e : HostEvent} {s t : State} (h : Served s e t) (he : e ≠ .blockReset) :
    ∃ es, Emits s t es ∧ ((∀ v, e ≠ .write 0x200 1 v) → es = []) := by
  cases h with
  | command i t h =>
    obtain ⟨es, hes⟩ := (exec_emission h).exists_emits
    exact ⟨es, hes, fun hcmd => absurd rfl (hcmd _)⟩
  | blockReset => exact absurd rfl he
  | _ => exact ⟨[], .nil rfl rfl, fun _ => rfl⟩

/-! ## The three commands' next states -/

section
variable (s : State) (es : List Event) (c : Nat)

theorem accept_eq :
    s.accept es = { s with
      trace := s.trace ++ es
      lines := s.lines.applyAll es
      agent := (s.accept es).agent } := rfl

theorem storeContrast_accept_eq :
    storeContrast c (s.accept es) = { s with
      trace := s.trace ++ es
      lines := s.lines.applyAll es
      contrast := BitVec.ofNat 8 (clamp c)
      agent := (s.accept es).agent } := rfl

theorem becomeReady_storeContrast_accept_eq :
    becomeReady (storeContrast c (s.accept es)) = { s with
      trace := s.trace ++ es
      lines := s.lines.applyAll es
      contrast := BitVec.ofNat 8 (clamp c)
      status := s.status ||| 0x04
      agent := (s.accept es).agent } := rfl

end

theorem whenReady_of_not_ready {run : State → Result} {s : State} (h : s.ready = false) :
    whenReady run s = .next (raise .notReady s) := if_neg (by simp [h])

theorem ofNat_clamp_toNat (c : Nat) : (BitVec.ofNat 8 (clamp c)).toNat = min c 0x7F := by
  rw [BitVec.toNat_ofNat, clamp]
  omega

/-! ## The display's instruction set (R103) -/

/-- A page address is no function set: its bit 6 is 1. -/
theorem isFunctionSet_setYByte (p : Nat) : isFunctionSet (setYByte p) = false := by
  have hbytes : ∀ b : Byte, isFunctionSet (0x40 ||| b) = false := by decide
  exact hbytes _

/-- No item of FLUSH selects an instruction set. -/
theorem deviceSetAfter_of_mem_flushItems {fb : Framebuffer} {i : ByteEvent} (hi : i ∈ flushItems fb)
    (d : Option Bool) : deviceSetAfter d i = d := by
  have haddress : ∀ p, deviceSetAfter d (.xfer .cmd (setYByte p)) = d := fun p => by
    simp [deviceSetAfter, isFunctionSet_setYByte]
  simp only [flushItems, pageItems, List.mem_append, List.mem_flatMap, List.mem_cons, List.mem_map,
    List.not_mem_nil, or_false] at hi
  obtain ⟨p, -, (rfl | rfl) | ⟨c, -, rfl⟩⟩ | rfl := hi
  · exact haddress p
  · rfl
  · rfl
  · exact haddress 0

theorem deviceSet_append_of_keeps {sent items : List ByteEvent}
    (h : ∀ i ∈ items, ∀ d, deviceSetAfter d i = d) : deviceSet (sent ++ items) = deviceSet sent := by
  rw [deviceSet, List.foldl_append]
  induction items with
  | nil => rfl
  | cons i items ih =>
    obtain ⟨hi, hitems⟩ := List.forall_mem_cons.1 h
    rw [List.foldl_cons, hi, ih hitems]

/-! ## The statements -/

/-- Settles O32: the bits' events by `xferEvents_getElem?_bit`, the others read off. -/
theorem transferEventsInOrder : Obligations.TransferEventsInOrder := fun m b =>
  ⟨xferEvents_length m b, rfl, rfl, fun _ hj => xferEvents_getElem?_bit m b hj, rfl⟩

/-- Settles O40: by induction over the first list (`expandAll_inj`). -/
theorem byteTraceIsUnique : Obligations.ByteTraceIsUnique := fun _ _ => expandAll_inj

/-- Settles O41: the session gives the basic set before FLUSH, and no item of FLUSH selects another. -/
theorem flushAddressesInBasicSet : Obligations.FlushAddressesInBasicSet := by
  intro s hsession hstalled hready
  obtain ⟨sent, htrace, -, -, hset⟩ := hsession hstalled
  refine ⟨sent, htrace, fun n => ?_⟩
  rw [deviceSet_append_of_keeps fun i hi => deviceSetAfter_of_mem_flushItems (List.mem_of_mem_take hi)]
  exact hset hready

/-- Settles O48: by the cases of a step (`Served.emits`). -/
theorem traceIsAppendOnly : Obligations.TraceIsAppendOnly := by
  intro s t hreset h
  obtain ⟨-, rfl⟩ | ⟨e, rest, hp, hs⟩ := served_of_step h
  · exact ⟨[], (List.append_nil _).symm, rfl, fun _ => rfl⟩
  · rw [hp, List.head?_cons] at hreset ⊢
    obtain ⟨es, ⟨htrace, hlines⟩, hcmd⟩ := hs.emits fun he => hreset (congrArg some he)
    exact ⟨es, htrace, hlines, fun hne => hcmd fun v he => hne v (congrArg some he)⟩

/-- Settles O37: what a command emits by `exec_emission`, and how much that is by the counts of the three lists. -/
theorem transferCounts : Obligations.TransferCounts := by
  refine ⟨fun s v r hr => ⟨_, issue_of_error hr, rfl⟩, fun i s hagent => ?_⟩
  obtain ⟨t, h⟩ := exec_next i s
  have htrace : t.trace = s.trace ++ expandAll (emitted s i) := by
    cases exec_emission h with
    | whole _ _ ht => exact ht.trace
    | waits ha =>
      rw [agentAccepts_of_none _ hagent] at ha
      cases ha
  refine ⟨t, emitted s i, h, htrace, ?_, ?_, ?_, ?_⟩
  · rintro c rfl
    have hc := counts_initItems c
    exact ⟨hc.cmd, hc.data, hc.other, hc.expandAll_length⟩
  · rintro c rfl hr
    have hc := counts_contrastItems c
    rw [emitted, if_pos hr]
    exact ⟨hc.cmd, hc.data, hc.other, hc.expandAll_length⟩
  · rintro rfl hr
    have hc := counts_flushItems s.fb
    rw [emitted, if_pos hr]
    exact ⟨hc.cmd, hc.data, hc.other, hc.expandAll_length⟩
  · rintro (hi | ⟨hr, hi⟩)
    · exact emitted_of_silent s hi
    · cases i with
      | init c => exact absurd rfl (hi c)
      | _ => simp [emitted, hr]

/-- Settles O33: the agent accepts the whole list, whose counts and end levels are known. -/
theorem initRunsResetSequence : Obligations.InitRunsResetSequence := by
  refine ⟨fun _ h => decodeWord_init h, fun c s _ hagent => ?_⟩
  have hlen : (expandAll (initItems c)).length = 139 := (counts_initItems c).expandAll_length
  have hlines := s.lines.applyAll_initItems c
  refine ⟨_, expandAll (initItems c), execInit_of_accepts (by rwa [hlen]), ?_, ofNat_clamp_toNat c, hlen, ?_⟩
  · rw [← hlines]
    exact becomeReady_storeContrast_accept_eq s _ c
  · simp only [initItems, expandAll_cons, expandAll_nil, ByteEvent.expand, List.append_assoc,
      List.cons_append, List.nil_append, List.append_nil]
    rfl

/-- Settles O34: `whenReady` before INIT, and else the whole list with its counts and end levels. -/
theorem setContrastSendsVop : Obligations.SetContrastSendsVop := by
  refine ⟨fun _ h => decodeWord_setContrast h, fun c s _ => ⟨whenReady_of_not_ready, fun hr hagent => ?_⟩⟩
  have hlen : (expandAll (contrastItems c)).length = 81 := (counts_contrastItems c).expandAll_length
  have hlines := s.lines.applyAll_contrastItems c
  refine ⟨_, expandAll (contrastItems c), execSetContrast_of_accepts hr (by rwa [hlen]), ?_,
    ofNat_clamp_toNat c, hlen, ?_⟩
  · rw [← hlines]
    exact storeContrast_accept_eq s _ c
  · simp only [contrastItems, expandAll_cons, expandAll_nil, ByteEvent.expand, List.append_assoc,
      List.append_nil]
    rfl

/-- Settles O35: `whenReady` before INIT, and else the whole list; its items by their place, its counts and its end
levels. -/
theorem flushSendsEveryCell : Obligations.FlushSendsEveryCell := by
  refine ⟨fun _ h => decodeWord_flush h, fun s => ⟨whenReady_of_not_ready, fun hr hagent => ?_⟩⟩
  have hcounts := counts_flushItems s.fb
  have hlen : (expandAll (flushItems s.fb)).length = 13959 := hcounts.expandAll_length
  refine ⟨_, flushItems s.fb, execFlush_of_accepts hr (by rwa [hlen]), ?_, ?_, hcounts.length, hlen,
    fun p hp => ⟨?_, ?_, fun c hc => ?_⟩, flushItems_getElem?_last s.fb⟩
  · rw [accept_lines]
    exact accept_eq s _
  · rw [accept_lines, Lines.applyAll_flushItems]
  · exact flushItems_getElem?_page s.fb hp (j := 0) (by decide)
  · exact flushItems_getElem?_page s.fb hp (j := 1) (by decide)
  · rw [Nat.add_assoc, flushItems_getElem?_page s.fb hp (by omega), pageItems_getElem?_cell s.fb p hc]

end Sys2Proof.Machine
end

section
/-! NOTREADY before INIT: the two commands that need the ready state raise it there (rules R105, R107, 60_exceptions.md). -/

namespace Sys2Proof.Machine

/-! ## STATUS after NotReady is raised -/

@[simp] theorem raise_notReady_notReady (s : State) : (raise .notReady s).notReady = true := by
  simp [State.notReady, CommandError.mask]

@[simp] theorem raise_notReady_illegal (s : State) : (raise .notReady s).illegal = s.illegal := by
  simp [State.illegal, CommandError.mask]

/-! ## The two commands before INIT -/

theorem exec_of_not_ready {i : Instr} {s : State} (hi : i = .flush ∨ ∃ c : Nat, i = .setContrast c)
    (hr : s.ready = false) : exec i s = .next (raise .notReady s) := by
  obtain rfl | ⟨c, rfl⟩ := hi <;> exact whenReady_of_not_ready hr

/-! ## The statement -/

/-- Settles O36: before INIT both commands only raise NotReady, which sets bit 1 of STATUS and keeps the other fields. -/
theorem notReadyBeforeInit : Obligations.NotReadyBeforeInit := fun _ s hi hr =>
  ⟨raise .notReady s, exec_of_not_ready hi hr, rfl, raise_notReady_notReady s, raise_notReady_illegal s,
    (raise_ready ..).trans hr⟩

end Sys2Proof.Machine
end

section
/-! What every step keeps, the form of the state and the serializer's session; block reset; the wait for the signalling
agent; and the statements of 10_state.md, 43_serializer.md and 70_reset_and_hazards.md that follow (rules R17, R28, R29,
R35, R36, R92, R101 to R103, R120). -/

namespace Sys2Proof.Machine

/-! ## Steps: a block reset at any time, an access only while no command waits -/

theorem step_of_stalled {s : State} (hs : s.stalled = true)
    (hp : ∀ rest, s.pending ≠ .blockReset :: rest) : step s = .fault .signallingStuck := by
  unfold step serveNext
  split
  next hrunning _ => simp [hs] at hrunning
  next hrunning _ => simp [hs] at hrunning
  next hpending => exact absurd hpending (hp _)
  next => rfl

theorem step_of_blockReset {s : State} {rest : List HostEvent} (hp : s.pending = .blockReset :: rest) :
    step s = .next (blockReset { s with pending := rest }) := by
  unfold step serveNext
  rw [hp]
  cases s.stalled <;> rfl

/-- All that a step can do, by whether a command waits: nothing, a block reset, or the service of an access from a
state in which none waits. -/
theorem served_of_step_running {s t : State} (h : step s = .next t) :
    t = s ∨ (∃ rest, t = blockReset { s with pending := rest }) ∨
      ∃ e rest, s.stalled = false ∧ e ≠ .blockReset ∧ Served { s with pending := rest } e t := by
  obtain ⟨-, -, rfl⟩ | ⟨e, rest, -, hreset, h⟩ := step_cases h
  · exact .inl rfl
  · by_cases he : e = .blockReset
    · subst he
      exact .inr (.inl ⟨rest, (Host.Outcome.next.inj h).symm⟩)
    · exact .inr (.inr ⟨e, rest, by simpa [he] using hreset, he, served_of_serve h⟩)

/-! ## What a completed command has sent -/

/-- The lists that a command can emit. -/
theorem emitted_cases (s : State) (i : Instr) :
    emitted s i = [] ∨ (∃ c, emitted s i = initItems c) ∨ (∃ c, emitted s i = contrastItems c) ∨
      emitted s i = flushItems s.fb := by
  cases i with
  | init c => exact .inr (.inl ⟨c, rfl⟩)
  | setContrast c =>
    by_cases hr : s.ready = true
    · exact .inr (.inr (.inl ⟨c, if_pos hr⟩))
    · exact .inl (if_neg hr)
  | flush =>
    by_cases hr : s.ready = true
    · exact .inr (.inr (.inr (if_pos hr)))
    · exact .inl (if_neg hr)
  | _ => exact .inl rfl

theorem flushItems_proper (fb : Framebuffer) : (flushItems fb).all ByteEvent.proper = true := by
  simp [flushItems, pageItems, ByteEvent.proper]

theorem emitted_proper (s : State) (i : Instr) : (emitted s i).all ByteEvent.proper = true := by
  obtain h | ⟨c, h⟩ | ⟨c, h⟩ | h := emitted_cases s i <;> rw [h]
  · rfl
  · rfl
  · rfl
  · exact flushItems_proper s.fb

/-- A command that does not wait has sent the whole of its list. -/
theorem Emission.emits_of_running {s t : State} {es : List Event} (h : Emission s es t)
    (ht : t.stalled = false) : Emits s t es := by
  cases h with
  | whole _ _ hemits => exact hemits
  | waits => cases ht

/-! ## Lines between commands (R35, R92) -/

/-- The serial clock is low and chip-select is off. -/
def Lines.Idle (l : Lines) : Prop := l.sclk = false ∧ l.sce = true

theorem Lines.Idle.applyAll_expand {l : Lines} {i : ByteEvent} (h : l.Idle) (hi : i.proper = true) :
    (l.applyAll i.expand).Idle := by
  cases i with
  | xfer m b =>
    rw [ByteEvent.expand, applyAll_xferEvents]
    exact ⟨rfl, rfl⟩
  | other e =>
    cases e with
    | delay d => exact h
    | set line level =>
      cases line with
      | rst | bl => exact h
      | _ => cases hi

/-- A proper byte-level list leaves the clock and chip-select idle. -/
theorem Lines.Idle.applyAll_expandAll {l : Lines} {items : List ByteEvent} (h : l.Idle)
    (hitems : items.all ByteEvent.proper = true) : (l.applyAll (expandAll items)).Idle := by
  induction items generalizing l with
  | nil => exact h
  | cons i items ih =>
    simp only [List.all_cons, Bool.and_eq_true] at hitems
    rw [expandAll_cons, applyAll_append]
    exact ih (h.applyAll_expand hitems.1) hitems.2

theorem Served.idle_lines {e : HostEvent} {s t : State} (h : Served s e t) (hs : s.lines.Idle)
    (ht : t.stalled = false) : t.lines.Idle := by
  cases h with
  | command i t h =>
    rw [((exec_emission h).emits_of_running ht).lines]
    exact hs.applyAll_expandAll (emitted_proper s i)
  | blockReset => exact ⟨rfl, rfl⟩
  | _ => exact hs

/-! ## The form of the state -/

/-- The form speaks of the memory, the three bytes, the lines, the trace and the wait alone. -/
theorem State.Form.congr {s t : State} (h : s.Form) (hmem : t.fb.mem = s.fb.mem) (hstatus : t.status = s.status)
    (htext : t.textColor = s.textColor) (hcontrast : t.contrast = s.contrast) (hlines : t.lines = s.lines)
    (htrace : t.trace = s.trace) (hstalled : t.stalled = s.stalled) : t.Form where
  mem_wf := by rw [hmem, h.mem_wf]
  status_reserved := by rw [hstatus, h.status_reserved]
  textColor_reserved := by rw [htext, h.textColor_reserved]
  contrast_reserved := by rw [hcontrast, h.contrast_reserved]
  lines_eq := by rw [State.linesOfTrace, hlines, htrace, h.lines_eq, State.linesOfTrace]
  idle_lines := by rw [hstalled, hlines]; exact h.idle_lines

theorem State.Form.with_pending {s : State} (h : s.Form) (p : List HostEvent) :
    State.Form { s with pending := p } := h.congr rfl rfl rfl rfl rfl rfl rfl

theorem form_reset : State.reset.Form := ⟨rfl, rfl, rfl, rfl, rfl, fun _ => ⟨rfl, rfl⟩⟩

theorem form_blockReset (s : State) : (blockReset s).Form := form_reset.congr rfl rfl rfl rfl rfl rfl rfl

theorem Served.mem_wf {e : HostEvent} {s t : State} (h : Served s e t) (hs : Memory.wf s.fb.mem = true) :
    Memory.wf t.fb.mem = true := by
  cases h with
  | cell a v ha => exact Memory.wf_write hs (by simp only [Config.cells]; omega)
  | command i t h => exact (exec_keeps_memory h hs).1
  | blockReset => rfl
  | _ => exact hs

/-- TEXT_COLOR keeps its value, or SET_TEXT_ATTR stores a bit operand (R26, R87). -/
theorem exec_textColor {i : Instr} {s t : State} (h : exec i s = .next t) :
    t.textColor = s.textColor ∨ ∃ color, t.textColor = operandBit color := by
  cases i with
  | setTextAttr size color =>
    rw [← Host.Outcome.next.inj h]
    exact .inr ⟨color, rfl⟩
  | _ =>
    exact .inl (by_contra fun hne => absurd ((exec_writtenBy h).textAttr (.inr hne)) (by simp [Instr.opcode]))

/-- CONTRAST keeps its value, or INIT or SET_CONTRAST stores a clamped one (R27, R96, R97). -/
theorem exec_contrast {i : Instr} {s t : State} (h : exec i s = .next t) :
    t.contrast = s.contrast ∨ ∃ c, t.contrast = BitVec.ofNat 8 (clamp c) := by
  cases i with
  | init c =>
    obtain ⟨es, -, ⟨-, rfl⟩ | ⟨-, rfl⟩⟩ := execInit_cases h
    · exact .inr ⟨c, rfl⟩
    · exact .inl rfl
  | setContrast c =>
    obtain ⟨-, rfl⟩ | ⟨-, es, -, ⟨-, rfl⟩ | ⟨-, rfl⟩⟩ := execSetContrast_cases h
    · exact .inl rfl
    · exact .inr ⟨c, rfl⟩
    · exact .inl rfl
  | _ =>
    exact .inl (by_contra fun hne => absurd ((exec_writtenBy h).contrast hne) (by simp [Instr.opcode]))

theorem operandBit_reserved (b : Bool) : operandBit b &&& 0xFE = 0 := by
  cases b <;> rfl

theorem ofNat_clamp_reserved (c : Nat) : BitVec.ofNat 8 (clamp c) &&& 0x80 = 0 := by
  have hbytes : ∀ b : Byte, b.toNat ≤ 0x7F → b &&& 0x80 = 0 := by decide
  exact hbytes _ (by rw [ofNat_clamp_toNat]; exact Nat.min_le_right _ _)

theorem Served.textColor_reserved {e : HostEvent} {s t : State} (h : Served s e t)
    (hs : s.textColor &&& 0xFE = 0) : t.textColor &&& 0xFE = 0 := by
  cases h with
  | command i t h =>
    obtain hkept | ⟨color, hbit⟩ := exec_textColor h
    · rw [hkept, hs]
    · rw [hbit, operandBit_reserved]
  | blockReset => exact form_reset.textColor_reserved
  | _ => exact hs

theorem Served.contrast_reserved {e : HostEvent} {s t : State} (h : Served s e t)
    (hs : s.contrast &&& 0x80 = 0) : t.contrast &&& 0x80 = 0 := by
  cases h with
  | command i t h =>
    obtain hkept | ⟨c, hclamp⟩ := exec_contrast h
    · rw [hkept, hs]
    · rw [hclamp, ofNat_clamp_reserved]
  | blockReset => exact form_reset.contrast_reserved
  | _ => exact hs

theorem Emits.lines_eq {s t : State} {es : List Event} (h : Emits s t es) (hs : s.lines = s.linesOfTrace) :
    t.lines = t.linesOfTrace := by
  rw [h.lines, hs, State.linesOfTrace, State.linesOfTrace, h.trace, Lines.applyAll_append]

theorem State.Form.served {e : HostEvent} {s t : State} (hs : s.Form) (hrunning : s.stalled = false)
    (he : e ≠ .blockReset) (h : Served s e t) : t.Form := by
  obtain ⟨es, hemits, -⟩ := h.emits he
  exact {
    mem_wf := h.mem_wf hs.mem_wf
    status_reserved := h.statusAfter.reserved hs.status_reserved
    textColor_reserved := h.textColor_reserved hs.textColor_reserved
    contrast_reserved := h.contrast_reserved hs.contrast_reserved
    lines_eq := hemits.lines_eq hs.lines_eq
    idle_lines := h.idle_lines (hs.idle_lines hrunning) }

/-! ## The serializer's session -/

/-- Whatever the device's set was, INIT leaves the basic one: its last function set is FUNCSET_BASIC (R103). -/
theorem deviceSet_append_initItems (sent : List ByteEvent) (c : Nat) :
    deviceSet (sent ++ initItems c) = some false := by
  rw [deviceSet, List.foldl_append]
  rfl

theorem deviceSet_append_contrastItems (sent : List ByteEvent) (c : Nat) :
    deviceSet (sent ++ contrastItems c) = some false := by
  rw [deviceSet, List.foldl_append]
  rfl

theorem ready_of_execInit {c : Nat} {s t : State} (h : execInit c s = .next t) (ht : t.stalled = false) :
    t.ready = true := by
  obtain ⟨es, -, ⟨-, rfl⟩ | ⟨-, rfl⟩⟩ := execInit_cases h
  · exact becomeReady_ready _
  · cases ht

theorem exec_ready_of_ne_init {i : Instr} {s t : State} (hi : ∀ c, i ≠ .init c) (h : exec i s = .next t) :
    t.ready = s.ready := by
  cases i with
  | init c => exact absurd rfl (hi c)
  | setContrast c =>
    obtain ⟨-, rfl⟩ | ⟨-, es, -, ⟨-, rfl⟩ | ⟨-, rfl⟩⟩ := execSetContrast_cases h
    · exact raise_ready _ _
    · rfl
    · rfl
  | flush =>
    obtain ⟨-, rfl⟩ | ⟨-, es, -, ⟨-, rfl⟩ | ⟨-, rfl⟩⟩ := execFlush_cases h
    · exact raise_ready _ _
    · rfl
    · rfl
  | _ => rw [exec_frame_of_silent (by simp) (by simp) (by simp) h]; rfl

theorem emitted_of_not_ready {i : Instr} {s : State} (hi : ∀ c, i ≠ .init c) (hr : s.ready = false) :
    emitted s i = [] := by
  cases i with
  | init c => exact absurd rfl (hi c)
  | _ => simp [emitted, hr]

/-- No command takes a display in its basic set out of it (R103). -/
theorem deviceSet_append_emitted {sent : List ByteEvent} (h : deviceSet sent = some false) (s : State)
    (i : Instr) : deviceSet (sent ++ emitted s i) = some false := by
  obtain hi | ⟨c, hi⟩ | ⟨c, hi⟩ | hi := emitted_cases s i <;> rw [hi]
  · rwa [List.append_nil]
  · exact deviceSet_append_initItems sent c
  · exact deviceSet_append_contrastItems sent c
  · exact (deviceSet_append_of_keeps fun i hi => deviceSetAfter_of_mem_flushItems hi).trans h

theorem State.Session.of_exec {i : Instr} {s t : State} (hs : s.Session) (hrunning : s.stalled = false)
    (h : exec i s = .next t) : t.Session := by
  intro ht
  obtain ⟨sent, htrace, hproper, hnone, hbasic⟩ := hs hrunning
  refine ⟨sent ++ emitted s i, ?_, by simp only [List.all_append, hproper, emitted_proper, Bool.and_self], ?_⟩
  · rw [((exec_emission h).emits_of_running ht).trace, htrace, expandAll_append]
  · by_cases hi : ∃ c, i = .init c
    · obtain ⟨c, rfl⟩ := hi
      have hready : t.ready = true := ready_of_execInit h ht
      exact ⟨fun hr => by simp [hready] at hr, fun _ => deviceSet_append_initItems sent c⟩
    · have hi : ∀ c, i ≠ .init c := not_exists.1 hi
      rw [exec_ready_of_ne_init hi h]
      refine ⟨fun hr => ?_, fun hr => deviceSet_append_emitted (hbasic hr) s i⟩
      rw [hnone hr, emitted_of_not_ready hi hr, List.append_nil]

theorem State.Session.with_pending {s : State} (h : s.Session) (p : List HostEvent) :
    State.Session { s with pending := p } := h

/-- The session speaks of the trace, READY and the wait alone. -/
theorem State.Session.congr {s t : State} (h : s.Session) (htrace : t.trace = s.trace)
    (hready : t.ready = s.ready) (hstalled : t.stalled = s.stalled) : t.Session := by
  unfold State.Session
  rwa [htrace, hready, hstalled]

theorem State.Session.served {e : HostEvent} {s t : State} (hs : s.Session) (hrunning : s.stalled = false)
    (he : e ≠ .blockReset) (h : Served s e t) : t.Session := by
  cases h with
  | command i t h => exact hs.of_exec hrunning h
  | undefined v hv => exact hs.congr rfl (raise_ready _ _) rfl
  | status v => exact hs.congr rfl (by simp [State.ready, statusW1C]) rfl
  | blockReset => exact absurd rfl he
  | _ => exact hs.congr rfl rfl rfl

theorem session_reset : State.reset.Session := fun _ =>
  ⟨[], rfl, rfl, fun _ => rfl, fun hready => absurd hready (by decide)⟩

theorem session_blockReset (s : State) : (blockReset s).Session := session_reset.congr rfl rfl rfl

/-! ## A command that waits (R101) -/

/-- The agent that accepts `k` events leaves a command that emits more of them waiting after the first `k`. -/
theorem State.stall_eq {s : State} {k : Nat} (hagent : s.agent = some k) {es : List Event}
    (hk : k ≤ es.length) :
    s.stall es = { s with
      trace := s.trace ++ es.take k
      lines := s.lines.applyAll (es.take k)
      agent := some 0
      stalled := true } := by
  simp [State.stall, State.accept, hagent, hk]

theorem exec_of_not_accepts {i : Instr} {s : State} (h : s.agentAccepts (expandAll (emitted s i)).length = false) :
    exec i s = .next (s.stall (expandAll (emitted s i))) := by
  obtain ⟨t, ht⟩ := exec_next i s
  cases exec_emission ht with
  | whole _ ha _ => simp [h] at ha
  | waits => exact ht

/-! ## The statements -/

/-- Settles O42: a block reset meets the form outright, and every other event served keeps each of its parts. -/
theorem formKeptByEveryStep : Obligations.FormKeptByEveryStep := by
  intro s t hs h
  obtain rfl | ⟨rest, rfl⟩ | ⟨e, rest, hrunning, he, h⟩ := served_of_step_running h
  · exact hs
  · exact form_blockReset _
  · exact (hs.with_pending rest).served hrunning he h

/-- Settles O43: a command that completes adds the whole items of its list (`exec_emission`); INIT and SET_CONTRAST end
in the basic set, and FLUSH selects none. -/
theorem sessionKeptByEveryStep : Obligations.SessionKeptByEveryStep := by
  intro s t hs h
  obtain rfl | ⟨rest, rfl⟩ | ⟨e, rest, hrunning, he, h⟩ := served_of_step_running h
  · exact hs
  · exact session_blockReset _
  · exact (hs.with_pending rest).served hrunning he h

/-- Settles O38: the agent does not accept the command's whole list, so the command waits, and the wait stops every step
but a block reset. -/
theorem unacceptedEventStallsForEver : Obligations.UnacceptedEventStallsForEver := by
  intro i items n k s hagent hk hcmd
  obtain ⟨hitems, hlen⟩ : emitted s i = items ∧ (expandAll items).length = n := by
    obtain ⟨⟨c, rfl, rfl⟩, rfl⟩ | ⟨⟨c, rfl, rfl⟩, rfl, hr⟩ | ⟨⟨rfl, rfl⟩, rfl, hr⟩ := hcmd
    · exact ⟨rfl, (counts_initItems c).expandAll_length⟩
    · exact ⟨if_pos hr, (counts_contrastItems c).expandAll_length⟩
    · exact ⟨if_pos hr, (counts_flushItems s.fb).expandAll_length⟩
  have hwaits : exec i s = .next (s.stall (expandAll items)) := by
    rw [← hitems]
    exact exec_of_not_accepts (by simp [State.agentAccepts, hagent, hitems, hlen, hk])
  exact ⟨hlen, _, _, hwaits, rfl, by rw [List.length_take]; omega, State.stall_eq hagent (by omega),
    fun hp => step_of_stalled rfl hp⟩

/-- Settles O15: a block reset is served whether a command waits or not, and lists no cell. -/
theorem blockResetFromAnyState : Obligations.BlockResetFromAnyState := by
  intro s rest hp
  have hstep := step_of_blockReset hp
  refine ⟨hstep, fun t h i => ?_⟩
  rw [← Host.Outcome.next.inj (hstep.symm.trans h)]
  rfl

/-- Settles O44: the reset values, and the empty trace for the session. -/
theorem resetMeetsInvariants : Obligations.ResetMeetsInvariants := ⟨form_reset, session_reset⟩

end Sys2Proof.Machine
end

section
/-! A receiver of the serial lines reads the bytes of the byte-level trace (rules R45(e), R92, R93). -/

namespace Sys2Proof.Machine

/-! ## A byte transfer, bit by bit -/

/-- The bits of a byte, most significant first: the order in which a transfer sends them (R45(e), R92). -/
def bitsMsbFirst (b : Byte) : List Bool :=
  [b.getLsbD 7, b.getLsbD 6, b.getLsbD 5, b.getLsbD 4, b.getLsbD 3, b.getLsbD 2, b.getLsbD 1, b.getLsbD 0]

theorem bitsToByte_bitsMsbFirst (b : Byte) : bitsToByte (bitsMsbFirst b) = b := by
  revert b
  decide

/-- The events of one bit: SDIN takes it, and the clock rises and falls (R92). -/
def bitEvents (v : Bool) : List Event := [.set .sdin v, .set .sclk true, .set .sclk false]

theorem xferEvents_eq_bitEvents (m : Mode) (b : Byte) :
    xferEvents m b = [.set .dc (decide (m = .data)), .set .sce false]
      ++ ((bitsMsbFirst b).flatMap bitEvents ++ [.set .sce true]) := rfl

theorem Receiver.afterAll_append (r : Receiver) (es fs : List Event) :
    r.afterAll (es ++ fs) = (r.afterAll es).afterAll fs := List.foldl_append

/-! ## What a receiver samples -/

/-- No event but a rising clock samples a bit. -/
theorem Receiver.after_of_ne_rise (r : Receiver) {e : Event} (he : e ≠ .set .sclk true) :
    r.after e = { r with lines := r.lines.apply e } := by
  cases e with
  | delay d => rfl
  | set line level => exact if_neg fun ⟨hline, hlevel, _⟩ => he (by rw [hline, hlevel])

/-- The mode that the mode line shows (R92). -/
def Lines.mode (l : Lines) : Mode := if l.dc then .data else .cmd

/-- The clock rises while chip-select is on: SDIN is sampled, and the eighth bit completes the byte. -/
theorem Receiver.after_rise {r : Receiver} (hsclk : r.lines.sclk = false) (hsce : r.lines.sce = false) :
    r.after (.set .sclk true)
      = if r.bits.length = 7 then
          { lines := { r.lines with sclk := true }
            bits := []
            bytes := r.bytes ++ [(r.lines.mode, bitsToByte (r.bits ++ [r.lines.sdin]))] }
        else { r with lines := { r.lines with sclk := true }, bits := r.bits ++ [r.lines.sdin] } :=
  if_pos ⟨rfl, rfl, hsclk, hsce⟩

/-- One bit sent is one bit sampled, and the clock is low again. -/
theorem Receiver.afterAll_bitEvents {r : Receiver} (hsclk : r.lines.sclk = false) (hsce : r.lines.sce = false)
    (v : Bool) :
    r.afterAll (bitEvents v)
      = if r.bits.length = 7 then
          { lines := { r.lines with sdin := v }
            bits := []
            bytes := r.bytes ++ [(r.lines.mode, bitsToByte (r.bits ++ [v]))] }
        else { r with lines := { r.lines with sdin := v }, bits := r.bits ++ [v] } := by
  rw [bitEvents, afterAll, List.foldl_cons, after_of_ne_rise r (by simp), List.foldl_cons,
    after_rise (r := ⟨r.lines.apply (.set .sdin v), r.bits, r.bytes⟩) hsclk hsce, List.foldl_cons,
    after_of_ne_rise _ (by simp)]
  obtain ⟨⟨sdin, sclk, dc, sce, rst, bl⟩, bits, bytes⟩ := r
  obtain rfl : sclk = false := hsclk
  by_cases hlast : bits.length = 7
  · simp only [if_pos hlast]; rfl
  · simp only [if_neg hlast]; rfl

/-- The bits that complete a byte are received as that byte, in the mode that the mode line shows. -/
theorem Receiver.afterAll_flatMap_bitEvents {vs : List Bool} {r : Receiver} (hsclk : r.lines.sclk = false)
    (hsce : r.lines.sce = false) (hlt : r.bits.length < 8) (hlen : r.bits.length + vs.length = 8) :
    ∃ v : Bool, r.afterAll (vs.flatMap bitEvents)
      = { lines := { r.lines with sdin := v }
          bits := []
          bytes := r.bytes ++ [(r.lines.mode, bitsToByte (r.bits ++ vs))] } := by
  induction vs generalizing r with
  | nil => simp only [List.length_nil] at hlen; omega
  | cons v vs ih =>
    rw [List.length_cons] at hlen
    rw [List.flatMap_cons, afterAll_append, afterAll_bitEvents hsclk hsce]
    by_cases hlast : r.bits.length = 7
    · obtain rfl : vs = [] := List.eq_nil_of_length_eq_zero (by omega)
      rw [if_pos hlast]
      exact ⟨v, rfl⟩
    · rw [if_neg hlast]
      obtain ⟨u, hu⟩ := ih (r := ⟨{ r.lines with sdin := v }, r.bits ++ [v], r.bytes⟩) hsclk hsce
        (by simp only [List.length_append, List.length_singleton]; omega)
        (by simp only [List.length_append, List.length_singleton]; omega)
      exact ⟨u, by rw [hu, List.append_assoc]; rfl⟩

/-- A byte transfer is one byte received, and leaves the clock low (R92). -/
theorem Receiver.afterAll_xferEvents {r : Receiver} (hbits : r.bits = []) (hsclk : r.lines.sclk = false)
    (m : Mode) (b : Byte) :
    ∃ l : Lines, l.sclk = false ∧
      r.afterAll (xferEvents m b) = { lines := l, bits := [], bytes := r.bytes ++ [(m, b)] } := by
  have hstart : r.afterAll [.set .dc (decide (m = .data)), .set .sce false]
      = { r with lines := { r.lines with dc := decide (m = .data), sce := false } } := rfl
  obtain ⟨v, hv⟩ := afterAll_flatMap_bitEvents (vs := bitsMsbFirst b)
    (r := ⟨{ r.lines with dc := decide (m = .data), sce := false }, r.bits, r.bytes⟩) hsclk rfl
    (by simp [hbits]) (by simp [hbits, bitsMsbFirst])
  have hmode : ({ r.lines with dc := decide (m = .data), sce := false } : Lines).mode = m := by
    cases m <;> rfl
  rw [hmode, hbits, List.nil_append, bitsToByte_bitsMsbFirst] at hv
  rw [xferEvents_eq_bitEvents, afterAll_append, hstart, hbits, afterAll_append, hv]
  exact ⟨{ r.lines with sdin := v, dc := decide (m = .data), sce := true }, hsclk, rfl⟩

theorem Lines.apply_other_sclk {e : Event} (he : (ByteEvent.other e).proper = true) (l : Lines) :
    (l.apply e).sclk = l.sclk := by
  cases e with
  | delay d => rfl
  | set line level =>
    cases line with
    | rst | bl => rfl
    | _ => cases he

/-! ## The statements -/

/-- Settles O39: a transfer is one byte received, and no other item samples a bit. -/
theorem receiverReadsByteTrace : Obligations.ReceiverReadsByteTrace := by
  intro items
  induction items with
  | nil => exact fun r _ hbits _ => ⟨(List.append_nil _).symm, hbits⟩
  | cons i items ih =>
    intro r hproper hbits hsclk
    simp only [List.all_cons, Bool.and_eq_true] at hproper
    obtain ⟨hi, hitems⟩ := hproper
    rw [expandAll_cons, Receiver.afterAll_append]
    cases i with
    | xfer m b =>
      obtain ⟨l, hl, hr⟩ := Receiver.afterAll_xferEvents hbits hsclk m b
      obtain ⟨hbytes, hrest⟩ := ih ⟨l, [], r.bytes ++ [(m, b)]⟩ hitems rfl hl
      rw [ByteEvent.expand, hr]
      exact ⟨by rw [hbytes, transferred, List.append_assoc, List.singleton_append], hrest⟩
    | other e =>
      have hrise : e ≠ .set .sclk true := by rintro rfl; cases hi
      have hr : r.afterAll (ByteEvent.other e).expand = { r with lines := r.lines.apply e } :=
        r.after_of_ne_rise hrise
      rw [hr]
      exact ih _ hitems hbits ((Lines.apply_other_sclk hi _).trans hsclk)

end Sys2Proof.Machine
end

section
/-! What a command does not see: a silent one the agent, and none the error bits of STATUS (rules R32, R63, R112). -/

namespace Sys2Proof.Machine

/-! ## What a silent command does not see -/

/-- The state with another STATUS and another agent, which no silent command reads or writes
(`exec_withControl_of_silent`). -/
def State.withControl (status : Byte) (agent : Option Nat) (s : State) : State :=
  { s with status := status, agent := agent }

theorem writeByte_withControl (status : Byte) (agent : Option Nat) (b : Nat) (s : State) :
    writeByte b (s.withControl status agent) = (writeByte b s).withControl status agent := by
  unfold writeByte
  split
  · rfl
  · split <;> rfl

theorem execDrawHline_eq (x y w : Nat) (c : Bool) (s : State) :
    execDrawHline x y w c s
      = .next { s with fb := if w = 0 then s.fb else line x y (lineEnd x w) y c s.fb } := by
  unfold execDrawHline
  split <;> rfl

theorem execDrawVline_eq (x y h : Nat) (c : Bool) (s : State) :
    execDrawVline x y h c s
      = .next { s with fb := if h = 0 then s.fb else line x y x (lineEnd y h) c s.fb } := by
  unfold execDrawVline
  split <;> rfl

theorem exec_withControl_of_silent {i : Instr} {s t : State} (status : Byte) (agent : Option Nat)
    (hi : isSerializer i = false) (h : exec i s = .next t) :
    exec i (s.withControl status agent) = .next (t.withControl status agent) := by
  cases i with
  | init | setContrast | flush => cases hi
  | drawHline x y w c =>
    rw [exec, execDrawHline_eq] at h ⊢
    rw [← Host.Outcome.next.inj h]
    rfl
  | drawVline x y w c =>
    rw [exec, execDrawVline_eq] at h ⊢
    rw [← Host.Outcome.next.inj h]
    rfl
  | writeByte b =>
    rw [← Host.Outcome.next.inj h, ← writeByte_withControl]
    rfl
  | _ => rw [← Host.Outcome.next.inj h]; rfl

theorem exec_eq_of_silent {i : Instr} {s t : State} (hi : isSerializer i = false) (h : exec i s = .next t) :
    t = { s with
      fb := t.fb, result := t.result, cursorX := t.cursorX, cursorY := t.cursorY,
      textSize := t.textSize, textColor := t.textColor } :=
  exec_frame_of_silent (by rintro c rfl; cases hi) (by rintro c rfl; cases hi) (by rintro rfl; cases hi) h

/-! ## Error bits -/

/-- The state with further error bits set in STATUS, which no command reads (`exec_withErrors`). -/
def State.withErrors (v : Byte) (s : State) : State := { s with status := s.status ||| v }

theorem withErrors_ready {v : Byte} (hv : v &&& 0xFC = 0) (s : State) : (s.withErrors v).ready = s.ready := by
  have hbit : v.getLsbD 2 = false := by
    have hbytes : ∀ b : Byte, b &&& 0xFC = 0 → b.getLsbD 2 = false := by decide
    exact hbytes v hv
  simp only [State.ready, State.withErrors, BitVec.getLsbD_or, hbit, Bool.or_false]

theorem statusSet_or (w v mask : Byte) : statusSet (w ||| v) mask = statusSet w mask ||| v := by
  rw [statusSet, statusSet, BitVec.or_assoc, BitVec.or_comm v, BitVec.or_assoc]

theorem raise_withErrors (e : CommandError) (v : Byte) (s : State) :
    raise e (s.withErrors v) = (raise e s).withErrors v := by
  simp only [raise, State.withErrors, statusSet_or]

theorem becomeReady_withErrors (v : Byte) (s : State) :
    becomeReady (s.withErrors v) = (becomeReady s).withErrors v := by
  simp only [becomeReady, State.withErrors, statusSet_or]

/-- Every command does the same beside further error bits (R112). -/
theorem exec_withErrors {i : Instr} {s t : State} {v : Byte} (hv : v &&& 0xFC = 0) (h : exec i s = .next t) :
    exec i (s.withErrors v) = .next (t.withErrors v) := by
  cases i with
  | init c =>
    exact emitThen_update (f := State.withErrors v) (rest := fun t => becomeReady (storeContrast c t))
      rfl (fun _ => rfl) (fun _ => rfl)
      (fun u => becomeReady_withErrors v (storeContrast c u)) h
  | setContrast c =>
    exact whenReady_update (withErrors_ready hv s) (raise_withErrors _ v s)
      (emitThen_update (f := State.withErrors v) rfl (fun _ => rfl) (fun _ => rfl) fun _ => rfl) h
  | flush =>
    exact whenReady_update (withErrors_ready hv s) (raise_withErrors _ v s)
      (emitThen_update (f := State.withErrors v) (rest := fun t => t) rfl (fun _ => rfl) (fun _ => rfl)
        fun _ => rfl) h
  | _ =>
    have hframe := exec_eq_of_silent rfl h
    have hwith := exec_withControl_of_silent (s.status ||| v) s.agent rfl h
    rw [hframe] at hwith ⊢
    exact hwith

/-! ## The statements -/

/-- Settles O49: by the three serializer commands, and by what a silent one does not see (`exec_withErrors`). -/
theorem errorBitsDoNotChangeCommands : Obligations.ErrorBitsDoNotChangeCommands :=
  fun _ _ _ _ hv h => exec_withErrors hv h

/-- Settles O50: the state after a silent command differs only in what such a command writes, and the same command does
the same beside another agent. -/
theorem silentCommandsNeedNoAgent : Obligations.SilentCommandsNeedNoAgent := by
  intro i s n hi
  obtain ⟨t, h⟩ := exec_next i s
  have hagent := exec_withControl_of_silent s.status n hi h
  have hframe := exec_eq_of_silent hi h
  have hstatus : s.status = t.status := by rw [hframe]
  refine ⟨t, h, hagent.trans (by rw [hstatus]; rfl), ?_⟩
  rw [hframe]
  exact ⟨rfl, rfl, rfl, rfl, rfl, rfl, rfl, rfl⟩

end Sys2Proof.Machine
end

section
/-! The canonical form of the memory is unique (log 3), and the words of the opcode table decode to the commands that
the next step runs (rules R52, R53, R55; log 24). -/

namespace Sys2Proof.Machine

/-! ## The canonical memory (log 3) -/

theorem Memory.lookup_cons_self (a : Nat) (v : Byte) (m : Memory) : Memory.lookup a ((a, v) :: m) = some v :=
  if_pos rfl

theorem Memory.lookup_cons_of_ne {a b : Nat} (h : a ≠ b) (v : Byte) (m : Memory) :
    Memory.lookup a ((b, v) :: m) = Memory.lookup a m := if_neg h

theorem Memory.rising_cons {lo hi a : Nat} {v : Byte} {m : Memory} :
    Memory.rising lo hi ((a, v) :: m) = true ↔ (lo ≤ a ∧ a < hi) ∧ Memory.rising (a + 1) hi m = true := by
  simp only [Memory.rising, Bool.and_eq_true, decide_eq_true_eq]

/-- The first address of a memory is listed, so the other memory begins no later. -/
theorem Memory.head_le_of_lookup_eq {lo hi a b : Nat} {u v : Byte} {m n : Memory}
    (hn : Memory.rising lo hi ((b, u) :: n) = true)
    (h : ∀ x, Memory.lookup x ((a, v) :: m) = Memory.lookup x ((b, u) :: n)) : b ≤ a := by
  by_contra hlt
  obtain ⟨⟨-, hb⟩, hrising⟩ := Memory.rising_cons.1 hn
  have hnone : Memory.lookup a ((b, u) :: n) = none :=
    Memory.lookup_eq_none_of_lt (lo := b) (Memory.rising_cons.2 ⟨⟨Nat.le_refl b, hb⟩, hrising⟩) (by omega)
  rw [← h, Memory.lookup_cons_self] at hnone
  cases hnone

theorem Memory.eq_of_lookup_eq {lo hi : Nat} {m n : Memory} (hm : Memory.rising lo hi m = true)
    (hn : Memory.rising lo hi n = true) (h : ∀ a, Memory.lookup a m = Memory.lookup a n) : m = n := by
  induction m generalizing lo n with
  | nil =>
    cases n with
    | nil => rfl
    | cons e n =>
      have hhead := h e.1
      rw [Memory.lookup_cons_self] at hhead
      cases hhead
  | cons d m ih =>
    obtain ⟨a, v⟩ := d
    cases n with
    | nil =>
      have hhead := h a
      rw [Memory.lookup_cons_self] at hhead
      cases hhead
    | cons e n =>
      obtain ⟨b, u⟩ := e
      obtain rfl : a = b := Nat.le_antisymm (Memory.head_le_of_lookup_eq hm fun x => (h x).symm)
        (Memory.head_le_of_lookup_eq hn h)
      have hhead := h a
      rw [Memory.lookup_cons_self, Memory.lookup_cons_self] at hhead
      obtain rfl := Option.some.inj hhead
      obtain ⟨-, hm⟩ := Memory.rising_cons.1 hm
      obtain ⟨-, hn⟩ := Memory.rising_cons.1 hn
      rw [ih hm hn fun x => ?_]
      by_cases hx : x = a
      · rw [hx, Memory.lookup_eq_none_of_lt hm (Nat.lt_succ_self a),
          Memory.lookup_eq_none_of_lt hn (Nat.lt_succ_self a)]
      · rw [← Memory.lookup_cons_of_ne hx v m, h, Memory.lookup_cons_of_ne hx]

/-! ## Words of the opcode table -/

theorem decodeWord_of_decode {b0 b1 b2 b3 b4 b5 b6 b7 : Byte} {bs rest : List Byte} {i : Instr}
    (h : decode (b0 :: b1 :: b2 :: b3 :: b4 :: b5 :: b6 :: b7 :: bs) = .ok (i, rest)) :
    decodeWord (packBytes b0 b1 b2 b3 b4 b5 b6 b7) = .ok i := by
  simp only [decode] at h
  split at h <;> cases h
  assumption

/-- The word that `withFetchWord` places decodes to the command that the decoder reads from the table word. -/
theorem decodeWord_of_decodeTableWord {nbits w : Nat} {i : Instr} (h : decodeTableWord nbits w = some i) :
    decodeWord (commandWord (argsOfBytes (tableBytes nbits w).tail) (tableByte nbits w 0)) = .ok i := by
  unfold decodeTableWord at h
  split at h <;> cases h
  exact decodeWord_of_decode ‹_›

/-! ## The statements -/

/-- Settles O51: by induction over the two lists (`Memory.eq_of_lookup_eq`). -/
theorem canonicalMemoryIsUnique : Obligations.CanonicalMemoryIsUnique := fun _ _ => Memory.eq_of_lookup_eq

/-- Settles O4: each word is decoded as it stands. -/
theorem writtenWordsDecode : Obligations.WrittenWordsDecode := by
  unfold Obligations.WrittenWordsDecode
  decide

/-- Settles O7: the next event is the write of the word's byte 0 to CMD, and the operand registers hold the others. -/
theorem fetchedWordIsExecuted : Obligations.FetchedWordIsExecuted := fun s nbits w _ h =>
  ⟨argsOfBytes (tableBytes nbits w).tail,
    step_cmd_of_ok (s := s.withFetchWord nbits w) rfl rfl (decodeWord_of_decodeTableWord h)⟩

end Sys2Proof.Machine
end
